-- ==== Sys2Proof/Word.lean ====
section
/-! DEFINITION. The word types of the WLVM core (spec/00_scope.md R6, R7, R9; 30_encoding.md R60). -/

namespace Sys2Proof

/-- A register or a Value Stack cell: 32 bits, read as a signed two's-complement number (R6). -/
abbrev Word := BitVec 32

/-- An instruction word: 64 bits (R60). -/
abbrev InstrWord := BitVec 64

/-- A byte: a character code (R200), or one byte of the host's program image (R43). -/
abbrev Byte := BitVec 8

end Sys2Proof
end

