-- ==== Sys2Proof/Config.lean ====
section
/-! DEFINITION. The parameters fixed when the block is built (spec/00_scope.md R6, 70_reset_and_hazards.md R253).
They are OPEN in the spec, so they are arguments of the model: every state carries its `Config`, no step
changes it, and a statement about every state is a statement for every build. -/

namespace Sys2Proof

/-- The build parameters of R6. -/
structure Config where
  /-- `STACK_CAP`, the number of Value Stack cells. -/
  stackCap : Nat
  /-- `HAS_SET`: the optional `Set` instruction exists. -/
  hasSet : Bool
  /-- `HAS_PEEK`: the optional `Pek` instruction exists. -/
  hasPeek : Bool
  deriving DecidableEq, Repr

/-- The build `State.reset` stands on. `HAS_SET` and `HAS_PEEK` are at R6's defaults. R6 gives `STACK_CAP` no
default: 4 is the value of the spec's test vectors (DESIGN CHOICE, log entry 1; unsafe for a claim about
`State.reset` alone, safe for a claim about every state). -/
def Config.standard : Config := { stackCap := 4, hasSet := false, hasPeek := false }

/-- The build of the spec's test vectors, in which every row of the opcode table is legal
(spec/95_test_vectors.md, Conventions). -/
def Config.allOptions : Config := { stackCap := 4, hasSet := true, hasPeek := true }

end Sys2Proof
end

