-- ==== Sys2Proof/Syntax.lean ====
section
/-! DEFINITION. Registers and instructions as abstract variants (spec/00_scope.md R5; 10_state.md R20;
30_encoding.md R62, R65): one constructor per row of spec/opcode_table.json. -/

namespace Sys2Proof

/-- The ten registers, in the order of R20. -/
inductive Reg where
  | a | b | c | d | e | f
  /-- `Ip`, the program counter (R25). -/
  | ip
  /-- `Sp`, the stack pointer (R26). -/
  | sp
  /-- `St`, the top-of-stack mirror (R27). -/
  | st
  /-- `Eq`, the comparison flag (R28). -/
  | eq
  deriving DecidableEq, Repr

/-- The instructions. The first register operand is the destination of every instruction that writes a
register operand (R71); immediates are the 32-bit pattern of a signed number (R63). -/
inductive Instr where
  /-- `Psh(i)`, R100. -/
  | psh (imm : Word)
  /-- `Pop`, R102. -/
  | pop
  /-- `Add(a,b)`, R120. -/
  | add (ra rb : Reg)
  /-- `Sub(a,b)`, R121. -/
  | sub (ra rb : Reg)
  /-- `Mul(a,b)`, R122. -/
  | mul (ra rb : Reg)
  /-- `Div(a,b)`, R123. -/
  | div (ra rb : Reg)
  /-- `Mov(a,b)`, R140. -/
  | mov (ra rb : Reg)
  /-- `Set(a,i)`, R142; exists only when `HAS_SET`. -/
  | set (ra : Reg) (imm : Word)
  /-- `Tee(a,b)`, R160. -/
  | tee (ra rb : Reg)
  /-- `Tne(a,b)`, R161. -/
  | tne (ra rb : Reg)
  /-- `Tll(a,b)`, R162. -/
  | tll (ra rb : Reg)
  /-- `Tmm(a,b)`, R163. -/
  | tmm (ra rb : Reg)
  /-- `Tel(a,b)`, R164. -/
  | tel (ra rb : Reg)
  /-- `Tem(a,b)`, R165. -/
  | tem (ra rb : Reg)
  /-- `Jmp(target)`, R180. -/
  | jmp (target : Word)
  /-- `Hlt`, R182. -/
  | hlt
  /-- `Dmp`, R203. -/
  | dmp
  /-- `Drg(reg)`, R204. -/
  | drg (ra : Reg)
  /-- `Dst`, R205. -/
  | dst
  /-- `Prt(reg)`, R206. -/
  | prt (ra : Reg)
  /-- `Pek`, R104; exists only when `HAS_PEEK`. -/
  | pek
  deriving DecidableEq, Repr

end Sys2Proof
end

