-- ==== Sys2Proof/Decode.lean ====
section
/-! DEFINITION. The instruction decoder and the encoder (spec/30_encoding.md R60 to R70). `decode` is total on
64-bit words and rejects by name; `encode` is written from the same field table. -/

namespace Sys2Proof

/-- Why a word is `Illegal` (R67). Every case raises the same fault, `IllegalInstruction` (R82). -/
inductive Illegal where
  /-- `op` is `0x00` or in `0x16`..`0xFF`. -/
  | unassignedOpcode
  /-- `op` is `Set` and `HAS_SET` is false. -/
  | setDisabled
  /-- `op` is `Pek` and `HAS_PEEK` is false. -/
  | peekDisabled
  /-- `rsv` is not 0. -/
  | reservedNonzero
  /-- The shape does not use `imm` and it is not 0. -/
  | unusedImm
  /-- The shape does not use `ra` and it is not 0. -/
  | unusedRa
  /-- The shape does not use `rb` and it is not 0. -/
  | unusedRb
  /-- A register field the shape uses holds 10 to 15. -/
  | noSuchRegister
  deriving DecidableEq, Repr

/-- `op`, bits 63:56 (R61). -/
def opField (w : InstrWord) : BitVec 8 := w.extractLsb' 56 8
/-- `ra`, bits 55:52 (R61). -/
def raField (w : InstrWord) : BitVec 4 := w.extractLsb' 52 4
/-- `rb`, bits 51:48 (R61). -/
def rbField (w : InstrWord) : BitVec 4 := w.extractLsb' 48 4
/-- `rsv`, bits 47:32 (R61). -/
def rsvField (w : InstrWord) : BitVec 16 := w.extractLsb' 32 16
/-- `imm`, bits 31:0 (R61), the pattern of the signed immediate (R63). -/
def immField (w : InstrWord) : Word := w.extractLsb' 0 32

/-- The register's index, 0 to 9 (R20). -/
def Reg.index : Reg → Nat
  | .a => 0 | .b => 1 | .c => 2 | .d => 3 | .e => 4 | .f => 5
  | .ip => 6 | .sp => 7 | .st => 8 | .eq => 9

/-- The 4-bit code of a register, its index (R64). -/
def Reg.field (r : Reg) : BitVec 4 := BitVec.ofNat 4 r.index

/-- The register decoder; 10 to 15 name no register (R64). -/
def regOfField (v : BitVec 4) : Except Illegal Reg :=
  match v.toNat with
  | 0 => .ok .a
  | 1 => .ok .b
  | 2 => .ok .c
  | 3 => .ok .d
  | 4 => .ok .e
  | 5 => .ok .f
  | 6 => .ok .ip
  | 7 => .ok .sp
  | 8 => .ok .st
  | 9 => .ok .eq
  | _ => .error .noSuchRegister

/-- Shape `N`: every operand field is 0 (R62, R66). -/
def operandsN (w : InstrWord) (i : Instr) : Except Illegal Instr :=
  if rsvField w ≠ 0#16 then .error .reservedNonzero
  else if immField w ≠ 0#32 then .error .unusedImm
  else if raField w ≠ 0#4 then .error .unusedRa
  else if rbField w ≠ 0#4 then .error .unusedRb
  else .ok i

/-- Shape `I`: one immediate (R62, R63, R66). -/
def operandsI (w : InstrWord) (mk : Word → Instr) : Except Illegal Instr :=
  if rsvField w ≠ 0#16 then .error .reservedNonzero
  else if raField w ≠ 0#4 then .error .unusedRa
  else if rbField w ≠ 0#4 then .error .unusedRb
  else .ok (mk (immField w))

/-- Shape `R`: one register (R62, R66). -/
def operandsR (w : InstrWord) (mk : Reg → Instr) : Except Illegal Instr :=
  if rsvField w ≠ 0#16 then .error .reservedNonzero
  else if immField w ≠ 0#32 then .error .unusedImm
  else if rbField w ≠ 0#4 then .error .unusedRb
  else match regOfField (raField w) with
    | .error e => .error e
    | .ok ra => .ok (mk ra)

/-- Shape `RR`: two registers (R62, R66). -/
def operandsRR (w : InstrWord) (mk : Reg → Reg → Instr) : Except Illegal Instr :=
  if rsvField w ≠ 0#16 then .error .reservedNonzero
  else if immField w ≠ 0#32 then .error .unusedImm
  else match regOfField (raField w) with
    | .error e => .error e
    | .ok ra => match regOfField (rbField w) with
      | .error e => .error e
      | .ok rb => .ok (mk ra rb)

/-- Shape `RI`: one register and one immediate (R62, R66). -/
def operandsRI (w : InstrWord) (mk : Reg → Word → Instr) : Except Illegal Instr :=
  if rsvField w ≠ 0#16 then .error .reservedNonzero
  else if rbField w ≠ 0#4 then .error .unusedRb
  else match regOfField (raField w) with
    | .error e => .error e
    | .ok ra => .ok (mk ra (immField w))

/-- The decoder (R66), by the opcode map of R65. -/
def decode (c : Config) (w : InstrWord) : Except Illegal Instr :=
  match (opField w).toNat with
  | 0x01 => operandsI w .psh
  | 0x02 => operandsN w .pop
  | 0x03 => operandsRR w .add
  | 0x04 => operandsRR w .sub
  | 0x05 => operandsRR w .mul
  | 0x06 => operandsRR w .div
  | 0x07 => operandsRR w .mov
  | 0x08 => if c.hasSet then operandsRI w .set else .error .setDisabled
  | 0x09 => operandsRR w .tee
  | 0x0A => operandsRR w .tne
  | 0x0B => operandsRR w .tll
  | 0x0C => operandsRR w .tmm
  | 0x0D => operandsRR w .tel
  | 0x0E => operandsRR w .tem
  | 0x0F => operandsI w .jmp
  | 0x10 => operandsN w .hlt
  | 0x11 => operandsN w .dmp
  | 0x12 => operandsR w .drg
  | 0x13 => operandsN w .dst
  | 0x14 => operandsR w .prt
  | 0x15 => if c.hasPeek then operandsN w .pek else .error .peekDisabled
  | _ => .error .unassignedOpcode

/-- The instruction word of given fields, with `rsv` 0 (R70). -/
def encodeFields (op : BitVec 8) (ra rb : BitVec 4) (imm : Word) : InstrWord :=
  (op.setWidth 64 <<< 56) ||| (ra.setWidth 64 <<< 52) ||| (rb.setWidth 64 <<< 48) ||| imm.setWidth 64

/-- The encoder (R70). -/
def encode : Instr → InstrWord
  | .psh i => encodeFields 0x01#8 0#4 0#4 i
  | .pop => encodeFields 0x02#8 0#4 0#4 0#32
  | .add ra rb => encodeFields 0x03#8 ra.field rb.field 0#32
  | .sub ra rb => encodeFields 0x04#8 ra.field rb.field 0#32
  | .mul ra rb => encodeFields 0x05#8 ra.field rb.field 0#32
  | .div ra rb => encodeFields 0x06#8 ra.field rb.field 0#32
  | .mov ra rb => encodeFields 0x07#8 ra.field rb.field 0#32
  | .set ra i => encodeFields 0x08#8 ra.field 0#4 i
  | .tee ra rb => encodeFields 0x09#8 ra.field rb.field 0#32
  | .tne ra rb => encodeFields 0x0A#8 ra.field rb.field 0#32
  | .tll ra rb => encodeFields 0x0B#8 ra.field rb.field 0#32
  | .tmm ra rb => encodeFields 0x0C#8 ra.field rb.field 0#32
  | .tel ra rb => encodeFields 0x0D#8 ra.field rb.field 0#32
  | .tem ra rb => encodeFields 0x0E#8 ra.field rb.field 0#32
  | .jmp t => encodeFields 0x0F#8 0#4 0#4 t
  | .hlt => encodeFields 0x10#8 0#4 0#4 0#32
  | .dmp => encodeFields 0x11#8 0#4 0#4 0#32
  | .drg ra => encodeFields 0x12#8 ra.field 0#4 0#32
  | .dst => encodeFields 0x13#8 0#4 0#4 0#32
  | .prt ra => encodeFields 0x14#8 ra.field 0#4 0#32
  | .pek => encodeFields 0x15#8 0#4 0#4 0#32

/-- The instruction word whose bits are `w`, bit 0 the least significant, the bits from `nbits` on being 0. An
instruction is one whole 64-bit word (R60), so no other layout arises. -/
def tableWord (nbits w : Nat) : InstrWord := BitVec.ofNat 64 (w % 2 ^ nbits)

/-- What the decoder reads from the word `w` of the opcode table, on the build in which every row of the table
is legal (log entry 2). A row of more than 64 bits is no instruction (R60). -/
def decodeTableWord (nbits w : Nat) : Option Instr :=
  if nbits ≤ 64 then
    match decode Config.allOptions (tableWord nbits w) with
    | .ok i => some i
    | .error _ => none
  else none

end Sys2Proof
end

