-- ==== Sys2Proof/Machine/State.lean ====
section
/-! DEFINITION. Everything the spec gives the machine to hold (spec/10_state.md R20 to R37), as plain data, and
the state after reset (R37). -/

namespace Sys2Proof.Machine

/-- The register file (R20), ten registers of 32 bits. -/
structure Regs where
  a : Word
  b : Word
  c : Word
  d : Word
  e : Word
  f : Word
  /-- `Ip` (R25). -/
  ip : Word
  /-- `Sp` (R26). -/
  sp : Word
  /-- `St` (R27). -/
  st : Word
  /-- `Eq` (R28). -/
  eq : Word
  deriving DecidableEq, Repr

/-- The Value Stack's cells (R31): the pairs of index and value whose value is not 0, indices strictly rising.
A cell that is not listed holds 0, the reset value of every cell (R37). The stack is not byte-addressed
(spec/20_memory.md R40, R45), so an entry holds one whole cell (log entry 4). -/
abbrev Stack := List (Nat × Word)

/-- The kinds of fault the block raises (spec/60_exceptions.md R220). -/
inductive FaultKind where
  | stackOverflow
  | stackUnderflow
  | negativeJumpTarget
  | programCounterOutOfRange
  | divisionByZero
  | illegalInstruction
  | registerDomainViolation
  deriving DecidableEq, Repr

/-- The engine run state `state` (R32). -/
inductive RunState where
  | running
  | halted
  /-- Stopped by a fault of a kind, raised at an instruction index (spec/60_exceptions.md R221). -/
  | faulted (kind : FaultKind) (index : Word)
  deriving DecidableEq, Repr

/-- The two phases of a trace event (spec/46_diagnostics.md R200). -/
inductive Phase where
  | before
  | after
  deriving DecidableEq, Repr

/-- The output events (spec/46_diagnostics.md R200). Lists of registers are in index order. -/
inductive Event where
  | char (c : Byte)
  | reg (r : Reg) (v : Word)
  | dump (regs : List Word) (stack : List Word)
  | stackNZ (cells : List (Nat × Word))
  | peek (k : Word) (v : Word)
  | trace (phase : Phase) (k : Word) (w : InstrWord) (regs : List Word)
  | listing (words : List InstrWord)
  deriving DecidableEq, Repr

/-- Where the block holds while the host has not accepted an event (R36, spec/46_diagnostics.md R201; log entry 5). -/
inductive Hold where
  /-- In the first step after reset, in front of its fetch: the listing is offered (R211). -/
  | listing
  /-- In an instruction whose handler is done: the events still to be accepted, oldest first, and the registers, the
  stack and the run state it leaves when they are. Nothing of it is visible before (R201, R252). -/
  | instruction (pending : List Event) (regs : Regs) (stk : Stack) (run : RunState)
  deriving DecidableEq, Repr

/-- The state of the block, with the parameters it is built with and the inputs of its run. -/
structure State where
  /-- The build parameters (spec/00_scope.md R6); no step changes them. -/
  cfg : Config
  /-- The program `Prog(0..N-1)`, an input of the run; `N` is its length (R34, spec/20_memory.md R40). -/
  prog : List InstrWord
  /-- `cfg_details`, an input of the run (R34, spec/46_diagnostics.md R210). -/
  cfgDetails : Bool
  /-- `cfg_instructions`, an input of the run (R34, spec/46_diagnostics.md R211). -/
  cfgInstructions : Bool
  /-- The register file (R20). -/
  regs : Regs
  /-- The Value Stack (R31). -/
  stk : Stack
  /-- The engine run state (R32). -/
  run : RunState
  /-- The hidden bit `listed` (R33). -/
  listed : Bool
  /-- The output channel: the events the host has accepted, oldest first (R35). -/
  out : List Event
  /-- The model's form of the input `out_ready` (spec/70_reset_and_hazards.md R259): `none` is a host that meets
  its duty and accepts every event (spec/46_diagnostics.md R209); `some n` is a host that accepts `n` more events
  and then no more (R201). Log entry 5. -/
  outCredit : Option Nat
  /-- The output hold (R36, spec/46_diagnostics.md R201); `none` when the block holds in no instruction. The form is
  the model's (log entry 5). -/
  hold : Option Hold
  deriving DecidableEq, Repr

/-- Why a step of the MODEL can stop without a next state. The faults of the hardware are no such stop: they are
next states (spec/60_exceptions.md R221). -/
inductive Fault where
  /-- Raised by a read or a write of a stack cell whose index is outside `0 .. STACK_CAP - 1`: the spec gives no
  such cell (spec/20_memory.md R40, R46). Safe: the model stops. No state that meets the invariant
  `Sys2Proof.Machine.StateInv` raises it, so no run from reset does (log entry 7). -/
  | noStackCell
  deriving DecidableEq, Repr

/-- Why a step of the model can refuse. -/
inductive Refusal where
  /-- Raised by the arm of an instruction that has no meaning yet. Safe. Every instruction has its meaning, so
  nothing raises it. -/
  | notModelled (mnemonic : String)
  deriving DecidableEq, Repr

/-- The register file after reset (R37): all 0, `Sp` -1. -/
def Regs.reset : Regs :=
  { a := 0#32, b := 0#32, c := 0#32, d := 0#32, e := 0#32, f := 0#32,
    ip := 0#32, sp := BitVec.ofInt 32 (-1), st := 0#32, eq := 0#32 }

/-- The machine right after reset (R37). The parameters and the inputs are not reset (R250); here they are the
standard build (log entries 1 and 2), the empty program and both flags clear (log entry 3), and a host that
accepts every event (log entry 5): DESIGN CHOICE. -/
def State.reset : State :=
  { cfg := Config.standard
    prog := []
    cfgDetails := false
    cfgInstructions := false
    regs := Regs.reset
    stk := []
    run := .running
    listed := false
    out := []
    outCredit := none
    hold := none }

end Sys2Proof.Machine
end

