-- ==== Sys2Proof/Machine/Ops.lean ====
section
/-! DEFINITION. The named operations over registers, stack cells, output and run state that the meanings share:
arithmetic helpers (spec/00_scope.md R9), cell access (spec/20_memory.md R40), the checked register write port
(spec/40_engine_cycle.md R84), taking a fault (spec/60_exceptions.md R221) and reset, the only return from one
(R224). -/

namespace Sys2Proof.Machine

/-- `wrap32(n)`: the word congruent to `n` modulo `2^32` (R9). -/
def wrap32 (n : Int) : Word := BitVec.ofInt 32 n

/-- `tdiv(n, d)`: the quotient rounded toward zero (R9). -/
def tdiv (n d : Int) : Int := Int.tdiv n d

/-! ### The register file -/

/-- The value of a register (R24). -/
def Regs.get (x : Regs) : Reg → Word
  | .a => x.a | .b => x.b | .c => x.c | .d => x.d | .e => x.e | .f => x.f
  | .ip => x.ip | .sp => x.sp | .st => x.st | .eq => x.eq

/-- The register file with one slot written, no check made. -/
def Regs.put (x : Regs) (r : Reg) (v : Word) : Regs :=
  match r with
  | .a => { x with a := v }
  | .b => { x with b := v }
  | .c => { x with c := v }
  | .d => { x with d := v }
  | .e => { x with e := v }
  | .f => { x with f := v }
  | .ip => { x with ip := v }
  | .sp => { x with sp := v }
  | .st => { x with st := v }
  | .eq => { x with eq := v }

/-- `x[0..9]` in index order (R20, spec/46_diagnostics.md R200). -/
def Regs.toList (x : Regs) : List Word := [x.a, x.b, x.c, x.d, x.e, x.f, x.ip, x.sp, x.st, x.eq]

/-- `x[r]` (R10). -/
def State.reg (s : State) (r : Reg) : Word := s.regs.get r

/-- `s` with register `r` holding `v`, no check made. -/
def State.putReg (s : State) (r : Reg) (v : Word) : State := { s with regs := s.regs.put r v }

/-! ### The Value Stack -/

/-- The value at an index of the cell list; 0 where none is listed (R31, R37). -/
def Stack.read : Stack → Nat → Word
  | [], _ => 0#32
  | (j, v) :: rest, k => if j = k then v else Stack.read rest k

/-- The cell list with the value at an index replaced. Writing 0 removes the entry, so that equal stacks are equal
lists. -/
def Stack.write : Stack → Nat → Word → Stack
  | [], k, v => if v = 0#32 then [] else [(k, v)]
  | (j, u) :: rest, k, v =>
    if k < j then (if v = 0#32 then (j, u) :: rest else (k, v) :: (j, u) :: rest)
    else if k = j then (if v = 0#32 then rest else (k, v) :: rest)
    else (j, u) :: Stack.write rest k v

/-- Every index of the list is at least `lo`, indices rise strictly and no value is 0. -/
def Stack.wfFrom (lo : Nat) : Stack → Bool
  | [] => true
  | (j, v) :: rest => decide (lo ≤ j) && decide (v ≠ 0#32) && Stack.wfFrom (j + 1) rest

/-- The canonical form of the cell list. -/
def Stack.wf (m : Stack) : Bool := Stack.wfFrom 0 m

/-- Every listed index is below `cap`. -/
def Stack.below (cap : Nat) : Stack → Bool
  | [] => true
  | (j, _) :: rest => decide (j < cap) && Stack.below cap rest

/-- The value of cell `k` as `Dmp`, `Dst` and the status port show it. -/
def State.cell (s : State) (k : Nat) : Word := Stack.read s.stk k

/-- All `STACK_CAP` cells in index order (spec/46_diagnostics.md R203). -/
def State.cells (s : State) : List Word := (List.range s.cfg.stackCap).map s.cell

/-- The pairs `(k, Stk[k])` for every cell that is not 0, in increasing `k` (spec/46_diagnostics.md R205). -/
def State.nonzeroCells (s : State) : List (Nat × Word) :=
  (List.range s.cfg.stackCap).filterMap fun k => if s.cell k ≠ 0#32 then some (k, s.cell k) else none

/-- Index `k` is a cell: `0 <= k < STACK_CAP` (R40). -/
def State.isCell (s : State) (k : Int) : Bool := decide (0 ≤ k) && decide (k < (s.cfg.stackCap : Int))

/-- `StkRead(k)` (R10); `none` where `k` is no cell. -/
def stkRead (k : Int) (s : State) : Option Word := if s.isCell k then some (s.cell k.toNat) else none

/-- `StkWrite(k, v)` (R10); `none` where `k` is no cell. -/
def stkWrite (k : Int) (v : Word) (s : State) : Option State :=
  if s.isCell k then some { s with stk := Stack.write s.stk k.toNat v } else none

/-! ### Output -/

/-- `emit(e)` (R10, spec/46_diagnostics.md R200). The wait for the host is the dispatcher's
(Machine/Cycle.lean, `deliver`). -/
def emit (e : Event) (s : State) : State := { s with out := s.out ++ [e] }

/-! ### Faults and reset -/

/-- Fault entry (spec/60_exceptions.md R221): the run state records the kind and the index of the instruction;
registers, stack and output stay, `Ip` is not incremented. Every meaning that faults answers with the state it
was given, so that nothing the handler wrote is kept (spec/40_engine_cycle.md R86). -/
def takeFault (kind : FaultKind) (s : State) : State := { s with run := .faulted kind s.regs.ip }

/-- Reset (spec/70_reset_and_hazards.md R250, R252): every piece of state at its value of R37, a held instruction
abandoned; the program, the flags, the parameters and the host's side of the output port are inputs and stay. It
is the only way out of `Halted` and `Faulted` (R254). -/
def assertReset (s : State) : State :=
  { s with regs := Regs.reset, stk := [], run := .running, listed := false, out := [], hold := none }

/-! ### The checked register write port -/

/-- The mode of a write through the port (spec/40_engine_cycle.md R84): `move` for `Mov` and `Set`, `plain` for
arithmetic. -/
inductive WriteMode where
  | plain
  | move
  deriving DecidableEq, Repr

/-- The value is in the domain of the register (R20): `Sp` in `[-1, STACK_CAP - 1]`, `Eq` 0 or 1, any other
register any word. -/
def inDomain (cap : Nat) (r : Reg) (v : Word) : Bool :=
  match r with
  | .sp => decide (-1 ≤ v.toInt) && decide (v.toInt ≤ (cap : Int) - 1)
  | .eq => decide (v = 0#32) || decide (v = 1#32)
  | _ => true

/-- What the port stores: a move into `Ip` stores the value minus 1 (spec/43_move.md R141). -/
def portValue (r : Reg) (v : Word) (mode : WriteMode) : Word :=
  match r, mode with
  | .ip, .move => wrap32 (v.toInt - 1)
  | _, _ => v

/-- `writeReg(r, v, mode)` (spec/40_engine_cycle.md R84). -/
def writeReg (r : Reg) (v : Word) (mode : WriteMode) (s : State) : State :=
  if inDomain s.cfg.stackCap r v then s.putReg r (portValue r v mode)
  else takeFault .registerDomainViolation s

end Sys2Proof.Machine
end

