-- ==== Sys2Proof/Machine/Operands.lean ====
section
/-! DEFINITION. The operand forms (spec/30_encoding.md R62, R63; 40_engine_cycle.md R85). An operand is a register
or a signed 32-bit immediate; there is no other form (spec/00_scope.md R7). Operands are read from the state the
handler is given, before any write. -/

namespace Sys2Proof.Machine

/-- The signed value of a register operand. A read of `Ip` gives the index of the reading instruction, a read of
`St` the register `St` (R85). -/
def regOperand (r : Reg) (s : State) : Int := (s.reg r).toInt

/-- The signed value of an immediate operand, `sext_32(imm)` (R63). -/
def immOperand (i : Word) : Int := i.toInt

end Sys2Proof.Machine
end

