-- ==== Sys2Proof/Machine/Arith.lean ====
section
/-! DEFINITION. The arithmetic instructions `Add`, `Sub`, `Mul` and `Div` (spec/42_arithmetic.md R120 to R125): the
exact integer result, kept modulo `2^32`, written to the first operand through the write port. -/

namespace Sys2Proof.Machine

/-- The shared operation `a := a OP b` (R124, R125). -/
def arithWith (op : Int → Int → Int) (ra rb : Reg) (s : State) : State :=
  writeReg ra (wrap32 (op (regOperand ra s) (regOperand rb s))) .plain s

/-- `Add(a,b)` (R120). -/
def execAdd (ra rb : Reg) (s : State) : Host.Outcome State Fault Refusal :=
  .next (arithWith (fun x y => x + y) ra rb s)

/-- `Sub(a,b)` (R121). -/
def execSub (ra rb : Reg) (s : State) : Host.Outcome State Fault Refusal :=
  .next (arithWith (fun x y => x - y) ra rb s)

/-- `Mul(a,b)` (R122). -/
def execMul (ra rb : Reg) (s : State) : Host.Outcome State Fault Refusal :=
  .next (arithWith (fun x y => x * y) ra rb s)

/-- `Div(a,b)` (R123): the zero divisor is checked before the write port. -/
def execDiv (ra rb : Reg) (s : State) : Host.Outcome State Fault Refusal :=
  if regOperand rb s = 0 then .next (takeFault .divisionByZero s)
  else .next (arithWith tdiv ra rb s)

end Sys2Proof.Machine
end

