-- ==== Sys2Proof/Machine/Flags.lean ====
section
/-! DEFINITION. The only flag, `Eq` (spec/10_state.md R28; 44_compare.md R160 to R166). There is no carry, overflow,
sign or zero flag. -/

namespace Sys2Proof.Machine

/-- A relation's result as the value of `Eq`: 1 when it holds, else 0 (R166). -/
def flagWord (p : Bool) : Word := if p then 1#32 else 0#32

/-- The shared operation of the six comparisons: read both operands, write `Eq` directly (spec/40_engine_cycle.md
R84, R85). -/
def compareWith (rel : Int → Int → Bool) (ra rb : Reg) (s : State) : State :=
  s.putReg .eq (flagWord (rel (regOperand ra s) (regOperand rb s)))

end Sys2Proof.Machine
end

