-- ==== Sys2Proof/Machine/Compare.lean ====
section
/-! DEFINITION. The comparisons `Tee`, `Tne`, `Tll`, `Tmm`, `Tel` and `Tem` (spec/44_compare.md R160 to R166): signed
relations of two registers, into `Eq`. -/

namespace Sys2Proof.Machine

/-- `Tee(a,b)`: equal (R160). -/
def execTee (ra rb : Reg) (s : State) : Host.Outcome State Fault Refusal :=
  .next (compareWith (fun x y => decide (x = y)) ra rb s)

/-- `Tne(a,b)`: not equal (R161). -/
def execTne (ra rb : Reg) (s : State) : Host.Outcome State Fault Refusal :=
  .next (compareWith (fun x y => decide (x ≠ y)) ra rb s)

/-- `Tll(a,b)`: less than (R162). -/
def execTll (ra rb : Reg) (s : State) : Host.Outcome State Fault Refusal :=
  .next (compareWith (fun x y => decide (x < y)) ra rb s)

/-- `Tmm(a,b)`: greater than (R163). -/
def execTmm (ra rb : Reg) (s : State) : Host.Outcome State Fault Refusal :=
  .next (compareWith (fun x y => decide (x > y)) ra rb s)

/-- `Tel(a,b)`: less than or equal (R164). -/
def execTel (ra rb : Reg) (s : State) : Host.Outcome State Fault Refusal :=
  .next (compareWith (fun x y => decide (x ≤ y)) ra rb s)

/-- `Tem(a,b)`: greater than or equal (R165). -/
def execTem (ra rb : Reg) (s : State) : Host.Outcome State Fault Refusal :=
  .next (compareWith (fun x y => decide (x ≥ y)) ra rb s)

end Sys2Proof.Machine
end

