-- ==== Sys2Proof/Machine/Control.lean ====
section
/-! DEFINITION. The control transfers `Jmp` and `Hlt` (spec/45_control.md R180 to R184). -/

namespace Sys2Proof.Machine

/-- `Jmp(target)` (R180): the sign of the target is checked whatever `Eq` holds. `Eq` is 0 or 1 in every state
that meets the invariant (R28); another value does not jump (log entry 8). -/
def execJmp (target : Word) (s : State) : Host.Outcome State Fault Refusal :=
  if immOperand target < 0 then .next (takeFault .negativeJumpTarget s)
  else if regOperand .eq s = 1 then .next (s.putReg .ip (wrap32 (immOperand target - 1)))
  else .next s

/-- `Hlt` (R182). -/
def execHlt (s : State) : Host.Outcome State Fault Refusal := .next { s with run := .halted }

end Sys2Proof.Machine
end

