-- ==== Sys2Proof/Machine/Diag.lean ====
section
/-! DEFINITION. The diagnostic instructions `Dmp`, `Drg`, `Dst` and `Prt` (spec/46_diagnostics.md R202 to R206). They
write nothing but the output channel. -/

namespace Sys2Proof.Machine

/-- `Dmp` (R203). -/
def execDmp (s : State) : Host.Outcome State Fault Refusal :=
  .next (emit (.dump s.regs.toList s.cells) s)

/-- `Drg(reg)` (R204). -/
def execDrg (r : Reg) (s : State) : Host.Outcome State Fault Refusal :=
  .next (emit (.reg r (s.reg r)) s)

/-- `Dst` (R205). -/
def execDst (s : State) : Host.Outcome State Fault Refusal :=
  .next (emit (.stackNZ s.nonzeroCells) s)

/-- `Prt(reg)` (R206). -/
def execPrt (r : Reg) (s : State) : Host.Outcome State Fault Refusal :=
  if 0 ≤ regOperand r s ∧ regOperand r s < 256 then
    .next (emit (.char (BitVec.ofInt 8 (regOperand r s))) s)
  else .next s

end Sys2Proof.Machine
end

