-- ==== Sys2Proof/Machine/Move.lean ====
section
/-! DEFINITION. The data movement instructions `Mov` and `Set` (spec/43_move.md R140 to R142), both through the
write port in mode `Move`. That `Set` exists only when `HAS_SET` is the decoder's to check (spec/30_encoding.md
R67). -/

namespace Sys2Proof.Machine

/-- `Mov(a,b)` (R140). -/
def execMov (ra rb : Reg) (s : State) : Host.Outcome State Fault Refusal :=
  .next (writeReg ra (s.reg rb) .move s)

/-- `Set(a,i)` (R142). -/
def execSet (ra : Reg) (i : Word) (s : State) : Host.Outcome State Fault Refusal :=
  .next (writeReg ra i .move s)

end Sys2Proof.Machine
end

