-- ==== Sys2Proof/Machine/StackInstrs.lean ====
section
/-! DEFINITION. The stack instructions `Psh`, `Pop` and `Pek` (spec/41_stack.md R100 to R105). -/

namespace Sys2Proof.Machine

/-- `push(value)`: the new top is the cell `Sp + 1`, mirrored into `St` (R100). -/
def pushValue (v : Word) (s : State) : Host.Outcome State Fault Refusal :=
  let sp' := regOperand .sp s + 1
  if sp' ≥ (s.cfg.stackCap : Int) then .next (takeFault .stackOverflow s)
  else match stkWrite sp' v s with
    | none => .fault .noStackCell
    | some t => .next ((t.putReg .sp (wrap32 sp')).putReg .st v)

/-- `top()`: the value of the cell `Sp`, which stays (R103); `none` where `Sp` is no cell. -/
def topValue (s : State) : Option Word := stkRead (regOperand .sp s) s

/-- What `St` mirrors once `Sp` is `k`: the cell `k`, or 0 when the stack is empty (R102). -/
def mirrorAt (k : Int) (s : State) : Option Word := if k ≥ 0 then stkRead k s else some 0#32

/-- `pop()`: the value of the cell `Sp`, and the state with `Sp` one lower and `St` refreshed (R102). The popped
cell keeps its value. `none` where `Sp` is no cell. -/
def popValue (s : State) : Option (Word × State) :=
  let sp' := regOperand .sp s - 1
  match topValue s, mirrorAt sp' s with
  | some v, some m => some (v, (s.putReg .sp (wrap32 sp')).putReg .st m)
  | _, _ => none

/-- `Psh(i)` (R100). -/
def execPsh (i : Word) (s : State) : Host.Outcome State Fault Refusal := pushValue i s

/-- `Pop` (R102): the popped value is discarded. -/
def execPop (s : State) : Host.Outcome State Fault Refusal :=
  if regOperand .sp s < 0 then .next (takeFault .stackUnderflow s)
  else match popValue s with
    | none => .fault .noStackCell
    | some (_, t) => .next t

/-- `Pek` (R104). -/
def execPek (s : State) : Host.Outcome State Fault Refusal :=
  if regOperand .sp s < 0 then .next (takeFault .stackUnderflow s)
  else match topValue s with
    | none => .fault .noStackCell
    | some v => .next (emit (.peek (s.reg .sp) v) (s.putReg .st v))

end Sys2Proof.Machine
end

