-- ==== Sys2Proof/Machine/Dispatch.lean ====
section
/-! DEFINITION. The dispatch of a decoded instruction to its handler (spec/40_engine_cycle.md R87). -/

namespace Sys2Proof.Machine

def exec (i : Instr) (s : State) : Host.Outcome State Fault Refusal :=
  match i with
  | .psh imm => Sys2Proof.Machine.execPsh imm s
  | .pop => Sys2Proof.Machine.execPop s
  | .add ra rb => Sys2Proof.Machine.execAdd ra rb s
  | .sub ra rb => Sys2Proof.Machine.execSub ra rb s
  | .mul ra rb => Sys2Proof.Machine.execMul ra rb s
  | .div ra rb => Sys2Proof.Machine.execDiv ra rb s
  | .mov ra rb => Sys2Proof.Machine.execMov ra rb s
  | .set ra imm => Sys2Proof.Machine.execSet ra imm s
  | .tee ra rb => Sys2Proof.Machine.execTee ra rb s
  | .tne ra rb => Sys2Proof.Machine.execTne ra rb s
  | .tll ra rb => Sys2Proof.Machine.execTll ra rb s
  | .tmm ra rb => Sys2Proof.Machine.execTmm ra rb s
  | .tel ra rb => Sys2Proof.Machine.execTel ra rb s
  | .tem ra rb => Sys2Proof.Machine.execTem ra rb s
  | .jmp target => Sys2Proof.Machine.execJmp target s
  | .hlt => Sys2Proof.Machine.execHlt s
  | .dmp => Sys2Proof.Machine.execDmp s
  | .drg ra => Sys2Proof.Machine.execDrg ra s
  | .dst => Sys2Proof.Machine.execDst s
  | .prt ra => Sys2Proof.Machine.execPrt ra s
  | .pek => Sys2Proof.Machine.execPek s

end Sys2Proof.Machine
end

