-- ==== Sys2Proof/Machine/Cycle.lean ====
section
/-! DEFINITION. The dispatcher's cycle (spec/40_engine_cycle.md R80 to R90): listing, fetch, decode, trace, handler,
commit, increment; and the wait for the host to accept the events (spec/46_diagnostics.md R201). -/

namespace Sys2Proof.Machine

/-- `Prog(Ip)`; `none` where `Ip < 0` or `Ip >= N` (R81). -/
def fetch (s : State) : Option InstrWord :=
  if (s.reg .ip).toInt < 0 then none
  else if (s.reg .ip).toInt ≥ (s.prog.length : Int) then none
  else s.prog[(s.reg .ip).toInt.toNat]?

/-- The trace event of the instruction `w` at index `k`, when `cfg_details` is set (spec/46_diagnostics.md R210). -/
def traceEvent (phase : Phase) (k : Word) (w : InstrWord) (s : State) : State :=
  if s.cfgDetails then emit (.trace phase k w s.regs.toList) s else s

/-- `Ip <- wrap32(Ip + 1)` (R83). -/
def increment (s : State) : State := s.putReg .ip (wrap32 ((s.reg .ip).toInt + 1))

/-- What follows a handler (R80, R83, R86): nothing after a fault, else the second trace event and the
increment. -/
def retire (k : Word) (w : InstrWord) (t : State) : State :=
  match t.run with
  | .faulted _ _ => t
  | .running => increment (traceEvent .after k w t)
  | .halted => increment (traceEvent .after k w t)

/-- The decoded instruction `i` of the word `w`, from its first trace event to the increment (R80). -/
def runDecoded (w : InstrWord) (i : Instr) (s : State) : Host.Outcome State Fault Refusal :=
  match exec i (traceEvent .before (s.reg .ip) w s) with
  | .next t => .next (retire (s.reg .ip) w t)
  | .fault r => .fault r
  | .refused r => .refused r

/-- The instruction at `Ip`, from its fetch to the increment, every event appended at once (R80;
spec/46_diagnostics.md R209). -/
def transact (s : State) : Host.Outcome State Fault Refusal :=
  match fetch s with
  | none => .next (takeFault .programCounterOutOfRange s)
  | some w => match decode s.cfg w with
    | .error _ => .next (takeFault .illegalInstruction s)
    | .ok i => runDecoded w i s

/-! ### The output port (spec/46_diagnostics.md R201; log entry 5) -/

/-- The events of an instruction are offered to the host in order. When it accepts all of them, the instruction
completes: what it leaves in the registers, the stack and the run state becomes the block's. When it does not, the
block holds in the instruction: the events accepted are on the channel, and nothing else of the block changes. -/
def deliver (pending : List Event) (regs : Regs) (stk : Stack) (run : RunState) (s : State) : State :=
  match s.outCredit with
  | none => { s with regs := regs, stk := stk, run := run, out := s.out ++ pending, hold := none }
  | some n =>
    if pending.length ≤ n then
      { s with regs := regs, stk := stk, run := run, out := s.out ++ pending,
               outCredit := some (n - pending.length), hold := none }
    else
      { s with out := s.out ++ pending.take n, outCredit := some 0,
               hold := some (.instruction (pending.drop n) regs stk run) }

/-- The completion `t` of an instruction that began at `s`, its events offered to the host. -/
def settle (s t : State) : State := deliver (t.out.drop s.out.length) t.regs t.stk t.run s

/-- The instruction at `Ip`, fetched, executed and offered. -/
def runInstr (s : State) : Host.Outcome State Fault Refusal :=
  match transact s with
  | .next t => .next (settle s t)
  | .fault r => .fault r
  | .refused r => .refused r

/-- The listing is still to be accepted before the fetch: the block holds in it, or the first step after reset begins
with `cfg_instructions` set (R80, spec/46_diagnostics.md R211). -/
def listingPending (s : State) : Bool :=
  match s.hold with
  | some .listing => true
  | some (.instruction _ _ _ _) => false
  | none => !s.listed && s.cfgInstructions

/-- The host does not accept the listing that is to be accepted before the fetch. -/
def listingBlocked (s : State) : Bool := listingPending s && decide (s.outCredit = some 0)

/-- The listing event, where it is to be accepted before the fetch. -/
def listingEvents (s : State) : List Event := if listingPending s then [.listing s.prog] else []

/-- The start of a step up to its fetch: `listed` is true (spec/10_state.md R33) and the listing, if any, is out. -/
def announce (s : State) : State :=
  { s with listed := true
           out := s.out ++ listingEvents s
           outCredit := s.outCredit.map fun n => n - (listingEvents s).length
           hold := none }

/-- A step that begins, or that goes on from the listing. `listed` is true from its beginning, whether or not the
listing is accepted (spec/10_state.md R33). -/
def beginStep (s : State) : Host.Outcome State Fault Refusal :=
  if listingBlocked s then .next { s with listed := true, hold := some .listing }
  else runInstr (announce s)

/-- One step (R80). A block that holds in an instruction fetches nothing and only offers the events still pending
(spec/46_diagnostics.md R201). In `Halted` and in `Faulted` the block takes no step and keeps all its state (R88,
spec/60_exceptions.md R233; log entry 6). -/
def cycle (s : State) : Host.Outcome State Fault Refusal :=
  match s.run with
  | .running => match s.hold with
    | some (.instruction pending regs stk run) => .next (deliver pending regs stk run s)
    | some .listing => beginStep s
    | none => beginStep s
  | .halted => .next s
  | .faulted _ _ => .next s

/-! ### A word at the place of the next fetch -/

/-- The program with the word at an index replaced; a shorter program is filled up with zero words, which are
illegal (spec/30_encoding.md R67). -/
def putWord (w : InstrWord) : Nat → List InstrWord → List InstrWord
  | 0, [] => [w]
  | 0, _ :: rest => w :: rest
  | k + 1, [] => 0#64 :: putWord w k []
  | k + 1, x :: rest => x :: putWord w k rest

/-- The build on which the word's opcode is legal: an optional instruction is switched on when the word is one
(spec/00_scope.md R6; log entry 2). -/
def buildFor (w : InstrWord) (c : Config) : Config :=
  { c with
    hasSet := c.hasSet || decide (opField w = 0x08#8)
    hasPeek := c.hasPeek || decide (opField w = 0x15#8) }

/-- The index the next step can fetch from: `Ip`, or 0 where `Ip` is negative and no program has such an index. -/
def fetchIndex (s : State) : Word := if (s.reg .ip).toInt < 0 then 0#32 else s.reg .ip

/-- `s` about to run the word: it stands in the program at `Ip`, the block runs, no instruction is held and the host
accepts events. It stands for the host's load (log entry 3). -/
def placeWord (s : State) (w : InstrWord) : State :=
  { s with
    cfg := buildFor w s.cfg
    prog := putWord w (fetchIndex s).toNat s.prog
    regs := s.regs.put .ip (fetchIndex s)
    run := .running
    outCredit := none
    hold := none }

end Sys2Proof.Machine
end

