-- ==== Sys2Proof/Machine/HostPort.lean ====
section
/-! DEFINITION. What the host does to the block and what the block shows the host (spec/70_reset_and_hazards.md
R253, R257 to R259, R262; 60_exceptions.md R220, R225; 20_memory.md R43). No step calls any of it. -/

namespace Sys2Proof.Machine

/-! ### Load and reset -/

/-- The host's load followed by reset (R253, R257): the program and the flags are the inputs of the run. -/
def loadProgram (words : List InstrWord) (details instructions : Bool) (s : State) : State :=
  assertReset { s with prog := words, cfgDetails := details, cfgInstructions := instructions }

/-- The host will accept `n` more output events (R257, row Output; log entry 5). -/
def acceptEvents (n : Nat) (s : State) : State := { s with outCredit := some n }

/-! ### The signals of a step (R259)

`prog_len`, `cfg_details`, `cfg_instructions` and `fetch_word` are the inputs `State.prog`, `State.cfgDetails` and
`State.cfgInstructions`, and `out_ready` is `State.outCredit` (log entry 5). -/

/-- `prog_len`: `N`. -/
def progLen (s : State) : Word := BitVec.ofNat 32 s.prog.length

/-- The step at hand fetches: the block runs, holds in no instruction (spec/46_diagnostics.md R201), has no listing
left that the host does not accept (R211), and `Ip` is in the program (R257). -/
def fetches (s : State) : Bool :=
  match s.run, s.hold with
  | .running, none => !listingBlocked s && (fetch s).isSome
  | .running, some .listing => !listingBlocked s && (fetch s).isSome
  | .running, some (.instruction _ _ _ _) => false
  | .halted, _ => false
  | .faulted _ _, _ => false

/-- `fetch_index`: `Ip`, only when a fetch is made. -/
def fetchIndexSignal (s : State) : Option Word := if fetches s then some (s.reg .ip) else none

/-- The first event of the instruction at `Ip`, `none` where it has none. -/
def firstEvent (s : State) : Option Event :=
  match transact s with
  | .next t => (t.out.drop s.out.length).head?
  | .fault _ => none
  | .refused _ => none

/-- `out_event`: the event the step at hand offers first, `none` where it offers none. A block that holds offers the
event it holds on. -/
def outEvent (s : State) : Option Event :=
  match s.run, s.hold with
  | .running, some (.instruction pending _ _ _) => pending.head?
  | .running, some .listing => some (.listing s.prog)
  | .running, none => if listingPending s then some (.listing s.prog) else firstEvent s
  | .halted, _ => none
  | .faulted _ _, _ => none

/-- `out_valid`: an event is offered. -/
def outValid (s : State) : Bool := (outEvent s).isSome

/-! ### The status interface (R262)

R262's table has the signals of the run state, the registers and the stack cells. spec/10_state.md R29 says that the
configuration inputs of R34 are observable through this interface too, and the table lists no signal for them: the
names and the form of those four signals are a DESIGN CHOICE (log entry 20). Reading any signal changes nothing. -/

/-- The numeric code of a fault kind (spec/60_exceptions.md R220). -/
def faultCode : FaultKind → BitVec 3
  | .stackOverflow => 1#3
  | .stackUnderflow => 2#3
  | .negativeJumpTarget => 3#3
  | .programCounterOutOfRange => 4#3
  | .divisionByZero => 5#3
  | .illegalInstruction => 6#3
  | .registerDomainViolation => 7#3

/-- `status_state`: 0 `Running`, 1 `Halted`, 2 `Faulted`. The
configuration inputs spec/10_state.md R29 names beside the run state are shown by `statusProgLen`, `statusProgWord`,
`statusCfgDetails` and `statusCfgInstructions`. -/
def statusState (s : State) : BitVec 2 :=
  match s.run with
  | .running => 0#2
  | .halted => 1#2
  | .faulted _ _ => 2#2

/-- `status_fault_code`: the code when `Faulted`, else 0. -/
def statusFaultCode (s : State) : BitVec 3 :=
  match s.run with
  | .faulted kind _ => faultCode kind
  | .running => 0#3
  | .halted => 0#3

/-- `status_fault_ip`: the fault index when `Faulted`, else 0. -/
def statusFaultIp (s : State) : Word :=
  match s.run with
  | .faulted _ k => k
  | .running => 0#32
  | .halted => 0#32

/-- `obs_reg[0..9]`. -/
def obsReg (s : State) : List Word := s.regs.toList

/-- The stack read port `obs_stack_index` / `obs_stack_value`; `none` for an index outside
`0 .. STACK_CAP - 1`, which the host may not give. -/
def obsStack (s : State) (index : Nat) : Option Word := stkRead (index : Int) s

/-! The configuration inputs (spec/10_state.md R29, R34), in the model's form (log entry 20). -/

/-- The length `N` of the program (spec/10_state.md R29, R34), with the width of `prog_len` (R259). -/
def statusProgLen (s : State) : Word := progLen s

/-- The read port of the program (spec/10_state.md R29, R34): the host gives an index in `0 .. N - 1` and reads that
word; `none` for any other index. -/
def statusProgWord (s : State) (index : Nat) : Option InstrWord := s.prog[index]?

/-- The flag `cfg_details` (spec/10_state.md R29, R34). -/
def statusCfgDetails (s : State) : Bool := s.cfgDetails

/-- The flag `cfg_instructions` (spec/10_state.md R29, R34). -/
def statusCfgInstructions (s : State) : Bool := s.cfgInstructions

/-! ### The host's program image (spec/20_memory.md R43) -/

/-- The eight bytes of an instruction word, the least significant first. -/
def wordBytes (w : InstrWord) : List Byte := (List.range 8).map fun j => w.extractLsb' (8 * j) 8

/-- The byte image of a program. -/
def programImage (words : List InstrWord) : List Byte := words.flatMap wordBytes

/-- The word of eight bytes, the least significant first. -/
def bytesWord (b0 b1 b2 b3 b4 b5 b6 b7 : Byte) : InstrWord := b7 ++ b6 ++ b5 ++ b4 ++ b3 ++ b2 ++ b1 ++ b0

/-- The program of a byte image; `none` where a part of a word is left over. -/
def imageProgram : List Byte → Option (List InstrWord)
  | [] => some []
  | b0 :: b1 :: b2 :: b3 :: b4 :: b5 :: b6 :: b7 :: rest =>
    match imageProgram rest with
    | some words => some (bytesWord b0 b1 b2 b3 b4 b5 b6 b7 :: words)
    | none => none
  | _ => none

/-! ### Dump mode (R258) -/

/-- The introspection instructions dump mode removes: `Dmp`, `Drg`, `Dst` and `Pek`; `Prt` stays. -/
def isIntrospection : Instr → Bool
  | .dmp => true
  | .drg _ => true
  | .dst => true
  | .pek => true
  | .prt _ => false
  | .psh _ => false
  | .pop => false
  | .add _ _ => false
  | .sub _ _ => false
  | .mul _ _ => false
  | .div _ _ => false
  | .mov _ _ => false
  | .set _ _ => false
  | .tee _ _ => false
  | .tne _ _ => false
  | .tll _ _ => false
  | .tmm _ _ => false
  | .tel _ _ => false
  | .tem _ _ => false
  | .jmp _ => false
  | .hlt => false

/-- The program of dump mode: `[Dmp] ++ filter(P) ++ [Dmp, Hlt]`, jump targets as they are. -/
def dumpProgram (p : List Instr) : List Instr :=
  [.dmp] ++ p.filter (fun i => !isIntrospection i) ++ [.dmp, .hlt]

end Sys2Proof.Machine
end

