-- ==== Sys2Proof/WellFormed.lean ====
section
/-! DEFINITION. Which parameters, program lengths and instructions the spec admits (spec/00_scope.md R6;
30_encoding.md R65). Register operands and immediates are well formed by their types. -/

namespace Sys2Proof

/-- The bound R6 puts on `STACK_CAP` and on `N`: `2^31 - 1`. -/
def maxIndexCount : Nat := 2147483647

/-- R6: `1 <= STACK_CAP <= 2^31 - 1`. -/
def Config.wf (c : Config) : Bool := decide (1 ≤ c.stackCap) && decide (c.stackCap ≤ maxIndexCount)

/-- R6: `0 <= N <= 2^31 - 1`. -/
def programLengthOk (n : Nat) : Bool := decide (n ≤ maxIndexCount)

/-- R65, column "legal when": `Set` needs `HAS_SET`, `Pek` needs `HAS_PEEK`, every other opcode is always
legal. -/
def Instr.wf (c : Config) : Instr → Bool
  | .set _ _ => c.hasSet
  | .pek => c.hasPeek
  | .psh _ => true
  | .pop => true
  | .add _ _ => true
  | .sub _ _ => true
  | .mul _ _ => true
  | .div _ _ => true
  | .mov _ _ => true
  | .tee _ _ => true
  | .tne _ _ => true
  | .tll _ _ => true
  | .tmm _ _ => true
  | .tel _ _ => true
  | .tem _ _ => true
  | .jmp _ => true
  | .hlt => true
  | .dmp => true
  | .drg _ => true
  | .dst => true
  | .prt _ => true

end Sys2Proof
end

