-- ==== Sys2Proof/Safety.lean ====
section
/-! DEFINITION. What holds in every state a run can reach (spec/10_state.md R20, R26, R28, R31; 00_scope.md R6), and
what a claim calls a run's end (spec/70_reset_and_hazards.md R255). -/

namespace Sys2Proof.Machine

/-- `-1 <= Sp < STACK_CAP` (R26). -/
abbrev SpOk (s : State) : Prop := -1 ≤ (s.reg .sp).toInt ∧ (s.reg .sp).toInt < (s.cfg.stackCap : Int)

/-- `Eq` is 0 or 1 (R28). -/
abbrev EqOk (s : State) : Prop := s.reg .eq = 0#32 ∨ s.reg .eq = 1#32

/-- The cell list is canonical and lists cells that exist only (R31, spec/20_memory.md R46). -/
abbrev StackOk (s : State) : Prop := Stack.wf s.stk = true ∧ Stack.below s.cfg.stackCap s.stk = true

/-- The parameters and the program are within the bounds of R6. -/
abbrev BuildOk (s : State) : Prop := s.cfg.wf = true ∧ programLengthOk s.prog.length = true

/-- A stopped block shows the index of the instruction that faulted, and `Ip` is left at it
(spec/60_exceptions.md R221). -/
def faultIndexOk (s : State) : Bool :=
  match s.run with
  | .faulted _ k => decide (k = s.reg .ip)
  | .running => true
  | .halted => true

/-- The block holds in an instruction whose events the host has not all accepted (spec/46_diagnostics.md R201). -/
def HoldsInstruction (s : State) : Prop := ∃ pending x m r, s.hold = some (.instruction pending x m r)

/-- A stopped block holds in no instruction, a hold is inside a step that has begun (spec/10_state.md R33), and what a
held instruction leaves when it completes is within the domains (spec/46_diagnostics.md R201). -/
def holdOk (s : State) : Bool :=
  match s.hold with
  | none => true
  | some .listing => decide (s.run = .running ∧ s.listed = true)
  | some (.instruction pending regs stk run) =>
    let t : State := { s with regs := regs, stk := stk, run := run }
    decide (s.run = .running ∧ s.listed = true ∧ pending ≠ [] ∧ SpOk t ∧ EqOk t ∧ StackOk t ∧ faultIndexOk t = true)

/-- The invariant of the machine. -/
abbrev StateInv (s : State) : Prop :=
  BuildOk s ∧ SpOk s ∧ EqOk s ∧ StackOk s ∧ faultIndexOk s = true ∧ holdOk s = true

/-- The host's duty on the output channel (spec/46_diagnostics.md R209): it accepts every event, so that no
instruction is held. -/
abbrev HostAccepts (s : State) : Prop := s.outCredit = none ∧ s.hold = none

/-- The run has ended (spec/70_reset_and_hazards.md R255). -/
abbrev Ended (s : State) : Prop := s.run ≠ .running

end Sys2Proof.Machine
end

