-- ==== Sys2Proof/Certificates/Slice0/Obligations.lean ====
section
/-! DEFINITION. The statements for the provers: rules of spec/ as propositions about the model. The helpers under
`Sys2Proof.Spec` spell the spec's own words out, so that a statement can be read without the model's text. -/

namespace Sys2Proof.Spec

open Sys2Proof.Machine

/-- The register operand fields, the reserved field and the immediate field of the encoding of an instruction. -/
def EncodedAs (i : Instr) (op ra rb : Nat) (imm : Word) : Prop :=
  (opField (encode i)).toNat = op ∧ (raField (encode i)).toNat = ra ∧ (rbField (encode i)).toNat = rb ∧
    rsvField (encode i) = 0#16 ∧ immField (encode i) = imm

/-- The parameters and the inputs of the run, `listed` and the output port are as before. -/
def KeepsInputs (s t : State) : Prop :=
  t.cfg = s.cfg ∧ t.prog = s.prog ∧ t.cfgDetails = s.cfgDetails ∧ t.cfgInstructions = s.cfgInstructions ∧
    t.listed = s.listed ∧ t.outCredit = s.outCredit ∧ t.hold = s.hold

/-- The status interface shows these words as the program, their number as `N`, and these flags. -/
def ShowsInputs (s : State) (words : List InstrWord) (details instructions : Bool) : Prop :=
  (statusProgLen s).toNat = words.length ∧ (∀ k, k < words.length → statusProgWord s k = words[k]?) ∧
    statusCfgDetails s = details ∧ statusCfgInstructions s = instructions

/-- Every register outside the list is as before. -/
def KeepsRegsBut (rs : List Reg) (s t : State) : Prop := ∀ r, r ∉ rs → t.reg r = s.reg r

/-- Every stack cell is as before. -/
def KeepsCells (s t : State) : Prop := ∀ k, t.cell k = s.cell k

/-- `t` is `s` with register `r` holding `v`, and nothing else changed. -/
def WritesReg (r : Reg) (v : Word) (s t : State) : Prop :=
  t.reg r = v ∧ KeepsRegsBut [r] s t ∧ KeepsCells s t ∧ t.run = s.run ∧ t.out = s.out ∧ KeepsInputs s t

/-- `t` is `s` stopped by a fault of a kind at the index in `Ip`, and nothing else changed. -/
def StopsWith (kind : FaultKind) (s t : State) : Prop := t = { s with run := .faulted kind (s.reg .ip) }

/-- The write port refuses the value: `Sp` outside `[-1, STACK_CAP - 1]`, or `Eq` not 0 or 1. -/
def PortRefuses (s : State) (r : Reg) (v : Int) : Prop :=
  (r = .sp ∧ ¬ (-1 ≤ v ∧ v ≤ (s.cfg.stackCap : Int) - 1)) ∨ (r = .eq ∧ v ≠ 0 ∧ v ≠ 1)

/-- The run state is `Faulted`. -/
def IsFaulted (s : State) : Prop := ∃ kind k, s.run = .faulted kind k

/-- The listing event the next step emits: once, in the first step after reset, when `cfg_instructions` is set. -/
def listingDue (s : State) : List Event :=
  if s.listed = false ∧ s.cfgInstructions = true then [.listing s.prog] else []

/-- The trace event of a phase, when `cfg_details` is set, showing the registers `x`. -/
def traceDue (s : State) (phase : Phase) (k : Word) (w : InstrWord) (x : Regs) : List Event :=
  if s.cfgDetails = true then [.trace phase k w x.toList] else []

/-- The mux of spec/46_diagnostics.md R212: the event of each handler. -/
def handlerEvents (i : Instr) (s : State) : List Event :=
  match i with
  | .dmp => [.dump s.regs.toList s.cells]
  | .drg r => [.reg r (s.reg r)]
  | .dst => [.stackNZ s.nonzeroCells]
  | .prt r => if 0 ≤ (s.reg r).toInt ∧ (s.reg r).toInt < 256 then [.char ((s.reg r).setWidth 8)] else []
  | .pek => [.peek (s.reg .sp) (s.cell (s.reg .sp).toInt.toNat)]
  | .psh _ | .pop | .add _ _ | .sub _ _ | .mul _ _ | .div _ _ | .mov _ _ | .set _ _ => []
  | .tee _ _ | .tne _ _ | .tll _ _ | .tmm _ _ | .tel _ _ | .tem _ _ | .jmp _ | .hlt => []

/-- The registers a handler may write (spec/10_state.md R21, R25 to R28). -/
def writtenRegs : Instr → List Reg
  | .psh _ | .pop => [.sp, .st]
  | .pek => [.st]
  | .add ra _ | .sub ra _ | .mul ra _ | .div ra _ | .mov ra _ | .set ra _ => [ra]
  | .tee _ _ | .tne _ _ | .tll _ _ | .tmm _ _ | .tel _ _ | .tem _ _ => [.eq]
  | .jmp _ => [.ip]
  | .hlt | .dmp | .drg _ | .dst | .prt _ => []

/-- Which handler raises which fault (spec/60_exceptions.md R220). -/
def MayRaise : Instr → FaultKind → Prop
  | .psh _, k => k = .stackOverflow
  | .pop, k | .pek, k => k = .stackUnderflow
  | .jmp _, k => k = .negativeJumpTarget
  | .div ra _, k => k = .divisionByZero ∨ (k = .registerDomainViolation ∧ (ra = .sp ∨ ra = .eq))
  | .add ra _, k | .sub ra _, k | .mul ra _, k => k = .registerDomainViolation ∧ (ra = .sp ∨ ra = .eq)
  | .mov ra _, k | .set ra _, k => k = .registerDomainViolation ∧ (ra = .sp ∨ ra = .eq)
  | .tee _ _, _ | .tne _ _, _ | .tll _ _, _ | .tmm _ _, _ | .tel _ _, _ | .tem _ _, _ => False
  | .hlt, _ | .dmp, _ | .drg _, _ | .dst, _ | .prt _, _ => False

/-- The signed value two register operands give an operation, wrapped to 32 bits. -/
def wrapped (op : Int → Int → Int) (s : State) (ra rb : Reg) : Word :=
  BitVec.ofInt 32 (op (s.reg ra).toInt (s.reg rb).toInt)

/-- What `a := a OP b` does: the wrapped result into `a`, or `RegisterDomainViolation`. -/
def ArithResult (i : Instr) (op : Int → Int → Int) (ra rb : Reg) (s : State) : Prop :=
  (PortRefuses s ra (wrapped op s ra rb).toInt →
    ∃ t, exec i s = .next t ∧ StopsWith .registerDomainViolation s t) ∧
  (¬ PortRefuses s ra (wrapped op s ra rb).toInt →
    ∃ t, exec i s = .next t ∧ WritesReg ra (wrapped op s ra rb) s t)

/-- What a comparison does: 1 or 0 into `Eq` as the relation of the signed values holds or not. -/
def CompareResult (i : Instr) (rel : Int → Int → Prop) (ra rb : Reg) (s : State) : Prop :=
  ∃ t, exec i s = .next t ∧
    (rel (s.reg ra).toInt (s.reg rb).toInt → WritesReg .eq 1#32 s t) ∧
    (¬ rel (s.reg ra).toInt (s.reg rb).toInt → WritesReg .eq 0#32 s t)

/-- What a move of the value `v` into `a` does, `Ip` taking the value minus 1. -/
def MoveResult (i : Instr) (ra : Reg) (v : Word) (s : State) : Prop :=
  (PortRefuses s ra v.toInt → ∃ t, exec i s = .next t ∧ StopsWith .registerDomainViolation s t) ∧
  (¬ PortRefuses s ra v.toInt →
    ∃ t, exec i s = .next t ∧ WritesReg ra (if ra = .ip then v - 1#32 else v) s t)

/-- Only events are added: the state after a diagnostic handler. -/
def Emits (es : List Event) (s t : State) : Prop := t = { s with out := s.out ++ es }

/-- The values are pushed in order, each push completing with no fault. -/
def PushesAll : List Word → State → State → Prop
  | [], s, t => t = s
  | v :: vs, s, t => ∃ u, exec (.psh v) s = .next u ∧ ¬ IsFaulted u ∧ PushesAll vs u t

/-- The instruction about to run: the word at `Ip` and what it decodes to. -/
def AboutToRun (s : State) (w : InstrWord) (i : Instr) : Prop :=
  s.run = .running ∧ HostAccepts s ∧ 0 ≤ (s.reg .ip).toInt ∧ s.prog[(s.reg .ip).toNat]? = some w ∧
    decode s.cfg w = .ok i

/-- The state a handler is given: the listing and the first trace event are out (spec/40_engine_cycle.md R80). -/
def atHandler (s : State) (w : InstrWord) : State :=
  { s with listed := true
           out := s.out ++ listingDue s ++ traceDue s .before (s.reg .ip) w s.regs }

end Sys2Proof.Spec

open Sys2Proof Sys2Proof.Machine Sys2Proof.Spec

/-! ### Encoding -/

/-- Decoding the encoding of an instruction whose opcode is legal gives the instruction back, with every operand at
every value (spec/30_encoding.md R70, a sentence the spec marks as derived from R61, R62 and R66). -/
def Obligations.DecodeOfEncodeIsTheInstruction : Prop :=
  ∀ (c : Config) (i : Instr), i.wf c = true → decode c (encode i) = .ok i

/-- Encoding what a word decodes to gives the word back, and the instruction is legal in the configuration
(spec/30_encoding.md R70, marked derived there). -/
def Obligations.EncodeOfDecodeIsTheWord : Prop :=
  ∀ (c : Config) (w : InstrWord) (i : Instr), decode c w = .ok i → encode i = w ∧ i.wf c = true

/-- A word is illegal exactly when one of the conditions of spec/30_encoding.md R67 holds (decision D5): an
unassigned or disabled opcode, a reserved or unused field that is not 0, a register field from 10 to 15. The shapes
are those of R62 and R65. -/
def Obligations.DecodeRejectsExactlyTheIllegalWords : Prop :=
  ∀ (c : Config) (w : InstrWord),
    let op := (opField w).toNat
    let usesRa := (3 ≤ op ∧ op ≤ 14) ∨ op = 0x12 ∨ op = 0x14
    let usesRb := (3 ≤ op ∧ op ≤ 7) ∨ (9 ≤ op ∧ op ≤ 14)
    let usesImm := op = 0x01 ∨ op = 0x08 ∨ op = 0x0F
    (∃ e, decode c w = .error e) ↔
      op = 0 ∨ 0x16 ≤ op ∨ (op = 0x08 ∧ c.hasSet = false) ∨ (op = 0x15 ∧ c.hasPeek = false) ∨
      rsvField w ≠ 0#16 ∨ (¬ usesImm ∧ immField w ≠ 0#32) ∨ (¬ usesRa ∧ raField w ≠ 0#4) ∨
      (¬ usesRb ∧ rbField w ≠ 0#4) ∨ (usesRa ∧ 10 ≤ (raField w).toNat) ∨ (usesRb ∧ 10 ≤ (rbField w).toNat)

/-- `HAS_SET` and `HAS_PEEK` decide whether two opcodes are legal and change no other word's decoding
(spec/30_encoding.md R69, decision D2). -/
def Obligations.OptionsGovernTwoOpcodesOnly : Prop :=
  (∀ (c c' : Config) (w : InstrWord), (opField w).toNat ≠ 0x08 → (opField w).toNat ≠ 0x15 →
    decode c w = decode c' w) ∧
  (∀ (c c' : Config) (w : InstrWord), c.hasSet = c'.hasSet → c.hasPeek = c'.hasPeek → decode c w = decode c' w) ∧
  (∀ (c : Config) (w : InstrWord), (opField w).toNat = 0x08 → c.hasSet = false →
    decode c w = .error .setDisabled) ∧
  (∀ (c : Config) (w : InstrWord), (opField w).toNat = 0x15 → c.hasPeek = false →
    decode c w = .error .peekDisabled)

/-- Words the spec writes out decode to the instructions it writes beside them (spec/30_encoding.md R70, table;
95_test_vectors.md L2.1). -/
def Obligations.WrittenWordsDecodeAsTheSpecSays : Prop :=
  decode .standard 0x0100000000000005#64 = .ok (.psh 5#32) ∧
  decode .standard 0x01000000FFFFFFFF#64 = .ok (.psh (BitVec.ofInt 32 (-1))) ∧
  decode .standard 0x0708000000000000#64 = .ok (.mov .a .st) ∧
  decode .standard 0x0301000000000000#64 = .ok (.add .a .b) ∧
  decode .standard 0x0F00000000000002#64 = .ok (.jmp 2#32) ∧
  decode .standard 0x1480000000000000#64 = .ok (.prt .st) ∧
  decode .standard 0x1000000000000000#64 = .ok .hlt ∧
  decode .allOptions 0x0800000000000005#64 = .ok (.set .a 5#32) ∧
  decode .allOptions 0x1500000000000000#64 = .ok .pek

/-- The little-endian byte image of a program (spec/20_memory.md R43, decision D24) is eight bytes a word, has bits
`8j+7..8j` of word `k` at offset `8k + j`, and reads back as the program. -/
def Obligations.ProgramImageIsLittleEndianAndReadsBack : Prop :=
  ∀ words : List InstrWord,
    (programImage words).length = 8 * words.length ∧
    (∀ (k j : Nat) (w : InstrWord), words[k]? = some w → j < 8 →
      (programImage words)[8 * k + j]? = some (w.extractLsb' (8 * j) 8)) ∧
    imageProgram (programImage words) = some words

/-! ### Reset and the host -/

/-- Every piece of state after reset has the value of spec/10_state.md R37, whatever state the reset finds, and the
model's `State.reset` has them too. -/
def Obligations.ResetLeavesTheStatedValues : Prop :=
  (∀ s : State,
    let t := assertReset s
    t.reg .a = 0#32 ∧ t.reg .b = 0#32 ∧ t.reg .c = 0#32 ∧ t.reg .d = 0#32 ∧ t.reg .e = 0#32 ∧ t.reg .f = 0#32 ∧
    t.reg .ip = 0#32 ∧ (t.reg .sp).toInt = -1 ∧ t.reg .st = 0#32 ∧ t.reg .eq = 0#32 ∧
    (∀ k, t.cell k = 0#32) ∧ t.run = .running ∧ t.listed = false ∧ t.out = []) ∧
  assertReset State.reset = State.reset

/-- Reset changes neither the program, the flags nor the parameters (spec/70_reset_and_hazards.md R250, R252,
decision D27), and abandons a held instruction. That the host's side of the output port stays as well is the
model's own (log entry 5). -/
def Obligations.ResetKeepsTheInputs : Prop :=
  ∀ s : State,
    let t := assertReset s
    t.cfg = s.cfg ∧ t.prog = s.prog ∧ t.cfgDetails = s.cfgDetails ∧ t.cfgInstructions = s.cfgInstructions ∧
      t.outCredit = s.outCredit ∧ t.hold = none

/-- The reset entry point is index 0: from reset the block is `Running` and its first fetch is `Prog(0)`
(spec/70_reset_and_hazards.md R251). -/
def Obligations.FirstFetchAfterResetIsIndexZero : Prop :=
  ∀ s : State, (assertReset s).reg .ip = 0#32 ∧ (assertReset s).run = .running ∧
    fetch (announce (assertReset s)) = s.prog[0]?

/-- The status interface shows the run state, the fault code of spec/60_exceptions.md R220 and the fault index, 0
where there is no fault (spec/70_reset_and_hazards.md R262, decisions D19 and D33). It speaks of the signals R262's table
lists; those of the configuration inputs are the next statement's. -/
def Obligations.StatusShowsRunStateCodeAndIndex : Prop :=
  (∀ s : State, s.run = .running → statusState s = 0#2 ∧ statusFaultCode s = 0#3 ∧ statusFaultIp s = 0#32) ∧
  (∀ s : State, s.run = .halted → statusState s = 1#2 ∧ statusFaultCode s = 0#3 ∧ statusFaultIp s = 0#32) ∧
  (∀ (s : State) (kind : FaultKind) (k : Word), s.run = .faulted kind k →
    statusState s = 2#2 ∧ statusFaultCode s = faultCode kind ∧ statusFaultIp s = k) ∧
  [FaultKind.stackOverflow, .stackUnderflow, .negativeJumpTarget, .programCounterOutOfRange, .divisionByZero,
    .illegalInstruction, .registerDomainViolation].map (fun kind => (faultCode kind).toNat) = [1, 2, 3, 4, 5, 6, 7] ∧
  (∀ s : State, obsReg s = [s.reg .a, s.reg .b, s.reg .c, s.reg .d, s.reg .e, s.reg .f, s.reg .ip, s.reg .sp,
    s.reg .st, s.reg .eq]) ∧
  (∀ (s : State) (k : Nat), k < s.cfg.stackCap → obsStack s k = some (s.cell k))

/-- The host observes the configuration inputs through the status interface (spec/10_state.md R29, R34): the signals
show the program, its length and the flags, as the host loaded them; what they show determines the inputs; and no
step and no reset changes it (spec/70_reset_and_hazards.md R250, R253; decisions D27, D31 and D32). R262's table lists no
such signals: their form is the model's choice (log entry 20). -/
def Obligations.StatusShowsTheConfigurationInputs : Prop :=
  (∀ s : State, programLengthOk s.prog.length = true → ShowsInputs s s.prog s.cfgDetails s.cfgInstructions) ∧
  (∀ (s : State) (words : List InstrWord) (details instructions : Bool), programLengthOk s.prog.length = true →
    ShowsInputs s words details instructions →
      s.prog = words ∧ s.cfgDetails = details ∧ s.cfgInstructions = instructions) ∧
  (∀ (s : State) (words : List InstrWord) (details instructions : Bool), programLengthOk words.length = true →
    ShowsInputs (loadProgram words details instructions s) words details instructions) ∧
  (∀ (s : State) (words : List InstrWord) (details instructions : Bool), ShowsInputs s words details instructions →
    ShowsInputs (assertReset s) words details instructions ∧
      ∀ t, step s = .next t → ShowsInputs t words details instructions)

/-! ### The invariant -/

/-- The reset state, and the state after a reset of any build within the bounds of R6, meet the invariant
(spec/10_state.md R37, R26, R28). The build `State.reset` stands on is the model's choice (log entries 1 to 3). -/
def Obligations.ResetMeetsTheInvariant : Prop :=
  StateInv State.reset ∧ ∀ s : State, BuildOk s → StateInv (assertReset s)

/-- Every step keeps the invariant: `Sp` stays in `[-1, STACK_CAP - 1]`, `Eq` stays 0 or 1, no cell that does not exist
is written and the stack stays canonical, a faulted block keeps the fault's index in `Ip`, and a hold is inside a step
that has begun and leaves, when it ends, values within the domains (spec/10_state.md R26, R28, R31, R33, R36;
60_exceptions.md R221; decisions D10, D18, D22 and D23). -/
def Obligations.StepKeepsTheInvariant : Prop :=
  ∀ s t : State, StateInv s → step s = .next t → StateInv t

/-- In a state that meets the invariant every step answers a next state: no stack access is out of bounds
(spec/10_state.md R26; 20_memory.md R46) and no instruction is refused. -/
def Obligations.StepAnswersInsideTheInvariant : Prop :=
  ∀ s : State, StateInv s → ∃ t, step s = .next t

/-! ### The dispatcher -/

/-- When the word at `Ip` decodes to an instruction, the step is its meaning, with what the dispatcher adds: the listing
and the first trace event before, and, after a handler that did not fault, the second trace event and the
increment of `Ip` (spec/40_engine_cycle.md R80, decisions D18 and D22). -/
def Obligations.StepRunsTheDecodedInstruction : Prop :=
  ∀ (s : State) (w : InstrWord) (i : Instr), AboutToRun s w i →
    (∀ t, exec i (atHandler s w) = .next t → IsFaulted t → step s = .next t) ∧
    (∀ t, exec i (atHandler s w) = .next t → ¬ IsFaulted t →
      step s = .next { t with regs := t.regs.put .ip (t.reg .ip + 1#32)
                              out := t.out ++ traceDue s .after (s.reg .ip) w t.regs }) ∧
    (∀ r, exec i (atHandler s w) = .fault r → step s = .fault r)

/-- After a handler that completes, `Ip` is the handler's `Ip` plus 1, wrapping, and no other register and no cell
changes (spec/40_engine_cycle.md R83, decision D15). -/
def Obligations.IncrementFollowsEveryCompletedHandler : Prop :=
  ∀ (s u t : State) (w : InstrWord) (i : Instr), AboutToRun s w i →
    exec i (atHandler s w) = .next u → ¬ IsFaulted u → step s = .next t →
      (t.reg .ip).toInt = Int.bmod ((u.reg .ip).toInt + 1) (2 ^ 32) ∧ KeepsRegsBut [.ip] u t ∧ KeepsCells u t ∧
        t.run = u.run

/-- A fetch at an index outside the program faults with `ProgramCounterOutOfRange` at that index and changes nothing
but `listed` and the listing (spec/40_engine_cycle.md R81, decision D7; 46_diagnostics.md R211). -/
def Obligations.FetchOutsideTheProgramFaults : Prop :=
  ∀ s : State, s.run = .running → HostAccepts s →
    ((s.reg .ip).toInt < 0 ∨ (s.prog.length : Int) ≤ (s.reg .ip).toInt) →
    step s = .next { s with run := .faulted .programCounterOutOfRange (s.reg .ip)
                            listed := true
                            out := s.out ++ listingDue s }

/-- A word that does not decode faults with `IllegalInstruction` at its index and changes nothing but `listed` and the
listing (spec/40_engine_cycle.md R82, decision D5; 46_diagnostics.md R211). -/
def Obligations.IllegalWordFaults : Prop :=
  ∀ (s : State) (w : InstrWord) (e : Illegal), s.run = .running → HostAccepts s →
    0 ≤ (s.reg .ip).toInt → s.prog[(s.reg .ip).toNat]? = some w → decode s.cfg w = .error e →
    step s = .next { s with run := .faulted .illegalInstruction (s.reg .ip)
                            listed := true
                            out := s.out ++ listingDue s }

/-- The checked register write port (spec/40_engine_cycle.md R84, decisions D10 and D16): a value outside the domain of
`Sp` or `Eq` faults, a move into `Ip` stores the value minus 1, any other write stores the value. -/
def Obligations.WritePortChecksAndStores : Prop :=
  ∀ (r : Reg) (v : Word) (mode : WriteMode) (s : State),
    (PortRefuses s r v.toInt → StopsWith .registerDomainViolation s (writeReg r v mode s)) ∧
    (¬ PortRefuses s r v.toInt →
      WritesReg r (if r = .ip ∧ mode = .move then v - 1#32 else v) s (writeReg r v mode s))

/-- Faults are precise: a step that faults leaves every register and every cell, records its own index, and adds to the
channel the listing and the first trace event at most (spec/40_engine_cycle.md R86; 60_exceptions.md R221;
decision D18; that the listing stays is log entry 9). -/
def Obligations.FaultsArePrecise : Prop :=
  ∀ (s t : State) (kind : FaultKind) (k : Word), s.run = .running → HostAccepts s → step s = .next t →
    t.run = .faulted kind k →
      k = s.reg .ip ∧ t.regs = s.regs ∧ t.stk = s.stk ∧ t.cfg = s.cfg ∧ t.prog = s.prog ∧
        ∃ es, t.out = s.out ++ listingDue s ++ es ∧
          (es = [] ∨ ∃ w, es = traceDue s .before (s.reg .ip) w s.regs)

/-- Each fault is raised by the handlers the table names, and a faulting handler keeps nothing it wrote
(spec/60_exceptions.md R220, R222; decisions D18 and D19). -/
def Obligations.HandlersRaiseOnlyTheirFaults : Prop :=
  ∀ (i : Instr) (s t : State) (kind : FaultKind) (k : Word), s.run = .running → exec i s = .next t →
    t.run = .faulted kind k → MayRaise i kind ∧ StopsWith kind s t

/-- A block that is `Halted` or `Faulted` takes no step: any number of steps keeps every piece of its state, and a reset
makes it run (spec/40_engine_cycle.md R88; 70_reset_and_hazards.md R254). That a step of the MODEL answers the same
state there is the model's convention (log entry 6). -/
def Obligations.StoppedBlockKeepsItsState : Prop :=
  ∀ (s : State) (n : Nat), s.run ≠ .running → Host.Core.run Sys2Proof.core n s = .next s ∧
    (assertReset s).run = .running

/-- `Hlt` is the only way to `Halted` (spec/45_control.md R182; 10_state.md R32, decision D28). From a running block that
holds in no instruction, a step that halts it, or that holds it in an instruction that will, executes the `Hlt` at
`Ip`. From a block that holds in an instruction, a step leaves the run state of that instruction, or holds on in it. -/
def Obligations.OnlyHltReachesHalted : Prop :=
  (∀ s t : State, s.run = .running → ¬ HoldsInstruction s → step s = .next t →
    (t.run = .halted ∨ ∃ pending x m, t.hold = some (.instruction pending x m .halted)) →
    0 ≤ (s.reg .ip).toInt ∧ ∃ w, s.prog[(s.reg .ip).toNat]? = some w ∧ decode s.cfg w = .ok .hlt) ∧
  (∀ (s t : State) (pending : List Event) (x : Regs) (m : Stack) (r : RunState), s.run = .running →
    s.hold = some (.instruction pending x m r) → step s = .next t →
    (t.run = r ∧ t.hold = none) ∨ (t.run = .running ∧ ∃ rest, t.hold = some (.instruction rest x m r)))

/-- No step changes the program, the flags or the parameters (spec/20_memory.md R41, R52; 10_state.md R34; decision
D32), and no handler's result depends on the program. -/
def Obligations.ProgramAndInputsNeverChange : Prop :=
  (∀ s t : State, step s = .next t → t.cfg = s.cfg ∧ t.prog = s.prog ∧ t.cfgDetails = s.cfgDetails ∧
    t.cfgInstructions = s.cfgInstructions) ∧
  (∀ (i : Instr) (s t : State) (p : List InstrWord), exec i s = .next t →
    exec i { s with prog := p } = .next { t with prog := p })

/-- The output channel is append-only, empty after reset, and no instruction reads it: a step adds events to whatever
the channel holds and does the same whatever it holds (spec/10_state.md R35). -/
def Obligations.OutputIsAppendOnlyAndUnread : Prop :=
  (∀ s : State, (assertReset s).out = []) ∧
  ∀ s t : State, step s = .next t → ∃ es, t.out = s.out ++ es ∧
    ∀ o : List Event, step { s with out := o } = .next { t with out := o ++ es }

/-- The events of a step that completes: the listing, the first trace event, the event the mux selects for the opcode,
the second trace event with the registers before the increment (spec/46_diagnostics.md R212, R210, R211; decision
D22). -/
def Obligations.StepOutputFollowsTheMux : Prop :=
  ∀ (s t : State) (w : InstrWord) (i : Instr), AboutToRun s w i → step s = .next t → ¬ IsFaulted t →
    t.out = s.out ++ listingDue s ++ traceDue s .before (s.reg .ip) w s.regs ++ handlerEvents i s ++
      traceDue s .after (s.reg .ip) w (t.regs.put .ip (t.reg .ip - 1#32))

/-- The two flags change nothing but the output: runs of any length that differ in the flags alone end in states that
differ in the flags and the channel alone (spec/46_diagnostics.md R210, R211; decision D22). -/
def Obligations.FlagsChangeOnlyTheOutput : Prop :=
  ∀ (n : Nat) (s t : State) (details instructions : Bool), HostAccepts s →
    Host.Core.run Sys2Proof.core n s = .next t →
    ∃ o, Host.Core.run Sys2Proof.core n { s with cfgDetails := details, cfgInstructions := instructions } =
      .next { t with cfgDetails := details, cfgInstructions := instructions, out := o }

/-- The output hold (spec/46_diagnostics.md R201; 10_state.md R33, R36; decisions D22 and D23; the form of the host's side
is the model's, log entry 5). Against a host that accepts `n` more events, a step either completes as against a host
that accepts all, or holds: `n` events are on the channel, registers, stack and run state are as before, a step that
began has set `listed`, and once the host accepts again the step completes as if it had never been held. -/
def Obligations.HeldInstructionCompletesUnchanged : Prop :=
  ∀ (s t u : State) (n : Nat), step { s with outCredit := none } = .next t →
    step { s with outCredit := some n } = .next u →
    (∃ m, m ≤ n ∧ u = { t with outCredit := some m }) ∨
    (u.hold ≠ none ∧ u.regs = s.regs ∧ u.stk = s.stk ∧ u.run = s.run ∧ (s.hold = none → u.listed = true) ∧
      u.outCredit = some 0 ∧ (∃ es, es.length = n ∧ u.out = s.out ++ es) ∧
      step { u with outCredit := none } = .next t)

/-- A block that holds changes no state and fetches nothing until the host accepts (spec/46_diagnostics.md R201, decision
D23; 70_reset_and_hazards.md R259; the form of the hold is log entry 5). Held in an instruction it shows no
`fetch_index`, offers the oldest pending event, does the same under every program, stays as it is while the host
accepts nothing, and completes when it accepts all. Held in front of the fetch it shows no `fetch_index`, offers the
listing and stays as it is while the host accepts nothing. -/
def Obligations.HeldBlockFetchesNothing : Prop :=
  (∀ (s : State) (pending : List Event) (x : Regs) (m : Stack) (r : RunState), s.run = .running →
    s.hold = some (.instruction pending x m r) →
    fetchIndexSignal s = none ∧ outEvent s = pending.head? ∧
    (∃ t, step s = .next t ∧ ∀ words, step { s with prog := words } = .next { t with prog := words }) ∧
    (s.outCredit = some 0 → pending ≠ [] → step s = .next s) ∧
    (s.outCredit = none →
      step s = .next { s with regs := x, stk := m, run := r, out := s.out ++ pending, hold := none })) ∧
  (∀ s : State, s.run = .running → s.hold = some .listing → s.listed = true → s.outCredit = some 0 →
    fetchIndexSignal s = none ∧ outEvent s = some (.listing s.prog) ∧ step s = .next s)

/-- `fetch_index` is `Ip`, and valid only when a fetch is made (spec/70_reset_and_hazards.md R257, R259, decision D25): in
a running block that holds in no instruction, with no listing before it that the host does not accept
(spec/46_diagnostics.md R211), and only inside the program. -/
def Obligations.FetchIndexIsShownExactlyWhenAStepFetches : Prop :=
  ∀ (s : State) (k : Word), fetchIndexSignal s = some k ↔
    s.run = .running ∧ ¬ HoldsInstruction s ∧
    ¬ (s.outCredit = some 0 ∧
      (s.hold = some .listing ∨ (s.hold = none ∧ s.listed = false ∧ s.cfgInstructions = true))) ∧
    0 ≤ (s.reg .ip).toInt ∧ (s.reg .ip).toInt < (s.prog.length : Int) ∧ k = s.reg .ip

/-- The hidden bit `listed` (spec/10_state.md R33, decision D22): false after reset; true once the first step has begun,
also where the host accepts no event and the block holds in front of its fetch; and no instruction reads it. -/
def Obligations.ListedIsSetWhenTheFirstStepBegins : Prop :=
  (∀ s : State, (assertReset s).listed = false) ∧
  (∀ s t : State, s.run = .running → s.hold = none → step s = .next t → t.listed = true) ∧
  (∀ s : State, s.cfgInstructions = true → s.outCredit = some 0 →
    step (assertReset s) = .next { assertReset s with listed := true, hold := some .listing }) ∧
  (∀ (i : Instr) (s t : State) (b : Bool), exec i s = .next t →
    exec i { s with listed := b } = .next { t with listed := b })

/-! ### Frames -/

/-- The frame of every handler: registers outside the ones it may write, the inputs and `listed` are as before; the run
state changes only by `Hlt` or a fault; and the channel gains events only from the five instructions that show
state (spec/10_state.md R21, R25 to R28; 42_arithmetic.md R125; 44_compare.md R166; 46_diagnostics.md R212;
decisions D10, D11, D18 and D22). -/
def Obligations.HandlerFrame : Prop :=
  ∀ (i : Instr) (s t : State), exec i s = .next t →
    KeepsRegsBut (writtenRegs i) s t ∧ KeepsInputs s t ∧
    (t.run = s.run ∨ (i = .hlt ∧ t.run = .halted) ∨ ∃ kind, MayRaise i kind ∧ StopsWith kind s t) ∧
    (t.out = s.out ∨ t.out = s.out ++ handlerEvents i s)

/-- The stack frame: a handler changes no cell but the one at `Sp + 1`, and none but `Psh` changes any
(spec/20_memory.md R42; 41_stack.md R100, R102). -/
def Obligations.OnlyPshWritesTheCellAboveSp : Prop :=
  ∀ (i : Instr) (s t : State), Stack.wf s.stk = true → exec i s = .next t →
    (∀ k : Nat, (k : Int) ≠ (s.reg .sp).toInt + 1 → t.cell k = s.cell k) ∧
    ((∀ v, i ≠ .psh v) → t.stk = s.stk)

/-! ### Stack instructions -/

/-- `Psh(i)` (spec/41_stack.md R100): its encoding, `StackOverflow` on a full stack, else the value in the new top
cell and in `St`, with its frame. -/
def Obligations.PshPushesTheImmediate : Prop :=
  (∀ v, EncodedAs (.psh v) 0x01 0 0 v) ∧
  ∀ (v : Word) (s : State), StateInv s →
    ((s.reg .sp).toInt + 1 ≥ (s.cfg.stackCap : Int) →
      ∃ t, exec (.psh v) s = .next t ∧ StopsWith .stackOverflow s t) ∧
    ((s.reg .sp).toInt + 1 < (s.cfg.stackCap : Int) →
      ∃ t, exec (.psh v) s = .next t ∧ (t.reg .sp).toInt = (s.reg .sp).toInt + 1 ∧ t.reg .st = v ∧
        t.cell ((s.reg .sp).toInt + 1).toNat = v ∧
        (∀ k : Nat, (k : Int) ≠ (s.reg .sp).toInt + 1 → t.cell k = s.cell k) ∧
        KeepsRegsBut [.sp, .st] s t ∧ t.run = s.run ∧ t.out = s.out ∧ KeepsInputs s t)

/-- `Pop` (spec/41_stack.md R102, decisions D12 and D13): `StackUnderflow` on an empty stack, else `Sp` one lower and
`St` the new top cell, or 0 when the stack becomes empty; the popped cell keeps its value. -/
def Obligations.PopDropsTheTop : Prop :=
  EncodedAs .pop 0x02 0 0 0#32 ∧
  ∀ s : State, StateInv s →
    ((s.reg .sp).toInt < 0 → ∃ t, exec .pop s = .next t ∧ StopsWith .stackUnderflow s t) ∧
    (0 ≤ (s.reg .sp).toInt →
      ∃ t, exec .pop s = .next t ∧ (t.reg .sp).toInt = (s.reg .sp).toInt - 1 ∧
        ((s.reg .sp).toInt = 0 → t.reg .st = 0#32) ∧
        (0 < (s.reg .sp).toInt → t.reg .st = s.cell ((s.reg .sp).toInt - 1).toNat) ∧
        KeepsCells s t ∧ KeepsRegsBut [.sp, .st] s t ∧ t.run = s.run ∧ t.out = s.out ∧ KeepsInputs s t)

/-- `Pek` (spec/41_stack.md R104, decision D9): `StackUnderflow` on an empty stack, else `St` takes the top cell and a
`Peek` event shows it; `Sp` and the cells stay. -/
def Obligations.PekRefreshesTheMirror : Prop :=
  EncodedAs .pek 0x15 0 0 0#32 ∧
  ∀ s : State, StateInv s →
    ((s.reg .sp).toInt < 0 → ∃ t, exec .pek s = .next t ∧ StopsWith .stackUnderflow s t) ∧
    (0 ≤ (s.reg .sp).toInt →
      ∃ t, exec .pek s = .next t ∧ t.reg .st = s.cell (s.reg .sp).toInt.toNat ∧
        t.out = s.out ++ [.peek (s.reg .sp) (s.cell (s.reg .sp).toInt.toNat)] ∧
        KeepsCells s t ∧ KeepsRegsBut [.st] s t ∧ t.run = s.run ∧ KeepsInputs s t)

/-- The stack bound checks (spec/41_stack.md R101): a push on a full stack and a pop on an empty one always fault, and
neither instruction ever writes outside `Stk[0 .. STACK_CAP-1]`. -/
def Obligations.StackBoundsAreAlwaysChecked : Prop :=
  (∀ (v : Word) (s : State), (s.reg .sp).toInt = (s.cfg.stackCap : Int) - 1 →
    ∃ t, exec (.psh v) s = .next t ∧ StopsWith .stackOverflow s t) ∧
  (∀ s : State, (s.reg .sp).toInt = -1 → ∃ t, exec .pop s = .next t ∧ StopsWith .stackUnderflow s t) ∧
  (∀ (i : Instr) (s t : State), (i = .pop ∨ ∃ v, i = .psh v) → Stack.wf s.stk = true → exec i s = .next t →
    ∀ k : Nat, s.cfg.stackCap ≤ k → t.cell k = s.cell k)

/-- A push and then a pop restore `Sp`, leave the pushed value in the cell above it, and leave in `St` the old top cell,
or 0 when the stack was empty (spec/41_stack.md R105, marked derived there). -/
def Obligations.PushThenPopRestoresSp : Prop :=
  ∀ (v : Word) (s : State), StateInv s → (s.reg .sp).toInt < (s.cfg.stackCap : Int) - 1 →
    ∃ t u, exec (.psh v) s = .next t ∧ exec .pop t = .next u ∧ u.reg .sp = s.reg .sp ∧
      u.cell ((s.reg .sp).toInt + 1).toNat = v ∧
      ((s.reg .sp).toInt = -1 → u.reg .st = 0#32) ∧
      (0 ≤ (s.reg .sp).toInt → u.reg .st = s.cell (s.reg .sp).toInt.toNat)

/-- From an empty stack at most `STACK_CAP` pushes can succeed before a pop, any number up to it does, and the pushed
values stand in the cells in order (spec/41_stack.md R105, marked derived there). -/
def Obligations.AtMostCapacityPushesSucceed : Prop :=
  ∀ (vs : List Word) (s : State), StateInv s → s.run = .running → (s.reg .sp).toInt = -1 →
    (∀ t, PushesAll vs s t → vs.length ≤ s.cfg.stackCap ∧ (t.reg .sp).toInt = (vs.length : Int) - 1 ∧
      ∀ (k : Nat) (v : Word), vs[k]? = some v → t.cell k = v) ∧
    (vs.length ≤ s.cfg.stackCap → ∃ t, PushesAll vs s t)

/-! ### Arithmetic -/

/-- `Add(a,b)` (spec/42_arithmetic.md R120): the wrapped sum into `a`, or the domain fault; into `Ip` with no
pre-decrement, so that the next instruction is at `k + x[b] + 1`. -/
def Obligations.AddWritesTheWrappedSum : Prop :=
  (∀ ra rb, EncodedAs (.add ra rb) 0x03 ra.index rb.index 0#32) ∧
  (∀ ra rb s, ArithResult (.add ra rb) (fun x y => x + y) ra rb s) ∧
  (∀ rb s t, exec (.add .ip rb) s = .next t → (increment t).reg .ip = s.reg .ip + s.reg rb + 1#32)

/-- `Sub(a,b)` (spec/42_arithmetic.md R121): the wrapped difference into `a`, or the domain fault. -/
def Obligations.SubWritesTheWrappedDifference : Prop :=
  (∀ ra rb, EncodedAs (.sub ra rb) 0x04 ra.index rb.index 0#32) ∧
  (∀ ra rb s, ArithResult (.sub ra rb) (fun x y => x - y) ra rb s)

/-- `Mul(a,b)` (spec/42_arithmetic.md R122): the low 32 bits of the exact product into `a`, or the domain fault. -/
def Obligations.MulWritesTheWrappedProduct : Prop :=
  (∀ ra rb, EncodedAs (.mul ra rb) 0x05 ra.index rb.index 0#32) ∧
  (∀ ra rb s, ArithResult (.mul ra rb) (fun x y => x * y) ra rb s)

/-- `Div(a,b)` (spec/42_arithmetic.md R123, decision D14): `DivisionByZero` before any other check, else the quotient
rounded toward zero, wrapped, into `a`, or the domain fault. -/
def Obligations.DivWritesTheTruncatedQuotient : Prop :=
  (∀ ra rb, EncodedAs (.div ra rb) 0x06 ra.index rb.index 0#32) ∧
  (∀ ra rb s, s.reg rb = 0#32 → ∃ t, exec (.div ra rb) s = .next t ∧ StopsWith .divisionByZero s t) ∧
  (∀ ra rb s, s.reg rb ≠ 0#32 → ArithResult (.div ra rb) Int.tdiv ra rb s)

/-- The remainder idiom (spec/42_arithmetic.md R123, marked derived there; decision D14): the quotient `Div` leaves in
`a` is the one whose remainder `a - (a / b) * b` is smaller in size than the divisor and has the sign of `a`;
`-2^31 / -1` alone wraps, to `-2^31`. -/
def Obligations.DivQuotientLeavesTheSignedRemainder : Prop :=
  ∀ (s : State), s.reg .b ≠ 0#32 → ∃ t, exec (.div .a .b) s = .next t ∧
    ((s.reg .a).toInt = -2147483648 ∧ (s.reg .b).toInt = -1 → (t.reg .a).toInt = -2147483648) ∧
    (¬ ((s.reg .a).toInt = -2147483648 ∧ (s.reg .b).toInt = -1) →
      ∃ r : Int, (s.reg .a).toInt = (t.reg .a).toInt * (s.reg .b).toInt + r ∧
        r.natAbs < (s.reg .b).toInt.natAbs ∧ (0 < r → 0 < (s.reg .a).toInt) ∧ (r < 0 → (s.reg .a).toInt < 0))

/-- Only the first operand is written; the second is unchanged unless it is the same register
(spec/42_arithmetic.md R125). -/
def Obligations.ArithmeticKeepsTheSecondOperand : Prop :=
  ∀ (ra rb : Reg) (s t : State) (i : Instr),
    (i = .add ra rb ∨ i = .sub ra rb ∨ i = .mul ra rb ∨ i = .div ra rb) → exec i s = .next t →
    KeepsRegsBut [ra] s t ∧ (rb ≠ ra → t.reg rb = s.reg rb)

/-! ### Moves -/

/-- `Mov(a,b)` (spec/43_move.md R140, R141; decisions D10 and D16): the source's value into `a`, `Ip` taking it minus
1, or the domain fault. -/
def Obligations.MovCopiesTheSource : Prop :=
  (∀ ra rb, EncodedAs (.mov ra rb) 0x07 ra.index rb.index 0#32) ∧
  (∀ ra rb s, MoveResult (.mov ra rb) ra (s.reg rb) s)

/-- `Set(a,i)` (spec/43_move.md R142, decision D8): the immediate into `a`, `Ip` taking it minus 1, or the domain
fault. -/
def Obligations.SetLoadsTheImmediate : Prop :=
  (∀ ra v, EncodedAs (.set ra v) 0x08 ra.index 0 v) ∧
  (∀ ra v s, MoveResult (.set ra v) ra v s)

/-- Where a step continues after a write to `Ip` (spec/40_engine_cycle.md R90; 70_reset_and_hazards.md R261; both
marked derived there): a move or a `Set` of `t` into `Ip` continues at `t`, an addition of `x` into `Ip` at
index `k` continues at `k + x + 1`. -/
def Obligations.WritesToIpContinueWhereStated : Prop :=
  (∀ (s : State) (w : InstrWord) (rb : Reg), AboutToRun s w (.mov .ip rb) →
    ∃ t, step s = .next t ∧ t.reg .ip = s.reg rb) ∧
  (∀ (s : State) (w : InstrWord) (v : Word), AboutToRun s w (.set .ip v) →
    ∃ t, step s = .next t ∧ t.reg .ip = v) ∧
  (∀ (s : State) (w : InstrWord) (rb : Reg), AboutToRun s w (.add .ip rb) →
    ∃ t, step s = .next t ∧ t.reg .ip = s.reg .ip + s.reg rb + 1#32)

/-! ### Comparisons -/

/-- The six comparisons (spec/44_compare.md R160 to R165): the signed relation of the two registers into `Eq`, as 0 or
1, and no other change; none faults. -/
def Obligations.ComparisonsWriteTheirRelation : Prop :=
  (∀ ra rb, EncodedAs (.tee ra rb) 0x09 ra.index rb.index 0#32 ∧ EncodedAs (.tne ra rb) 0x0A ra.index rb.index 0#32 ∧
    EncodedAs (.tll ra rb) 0x0B ra.index rb.index 0#32 ∧ EncodedAs (.tmm ra rb) 0x0C ra.index rb.index 0#32 ∧
    EncodedAs (.tel ra rb) 0x0D ra.index rb.index 0#32 ∧ EncodedAs (.tem ra rb) 0x0E ra.index rb.index 0#32) ∧
  ∀ ra rb s,
    CompareResult (.tee ra rb) (fun x y => x = y) ra rb s ∧ CompareResult (.tne ra rb) (fun x y => x ≠ y) ra rb s ∧
    CompareResult (.tll ra rb) (fun x y => x < y) ra rb s ∧ CompareResult (.tmm ra rb) (fun x y => x > y) ra rb s ∧
    CompareResult (.tel ra rb) (fun x y => x ≤ y) ra rb s ∧ CompareResult (.tem ra rb) (fun x y => x ≥ y) ra rb s

/-- Related comparisons of the same operands give complementary values of `Eq` (spec/44_compare.md R166, marked derived
there): `Tee` and `Tne`, `Tll` and `Tem`, `Tmm` and `Tel` sum to 1. -/
def Obligations.RelatedComparisonsAreComplementary : Prop :=
  ∀ (ra rb : Reg) (s t u : State) (i j : Instr),
    ((i = .tee ra rb ∧ j = .tne ra rb) ∨ (i = .tll ra rb ∧ j = .tem ra rb) ∨ (i = .tmm ra rb ∧ j = .tel ra rb)) →
    exec i s = .next t → exec j s = .next u → (t.reg .eq).toInt + (u.reg .eq).toInt = 1

/-! ### Control transfer -/

/-- `Jmp(target)` (spec/45_control.md R180, decisions D17 and D35): a negative target faults whatever `Eq` holds, `Eq`
1 stores the target minus 1 in `Ip`, `Eq` 0 does nothing. -/
def Obligations.JmpJumpsWhenEqIsOne : Prop :=
  (∀ v, EncodedAs (.jmp v) 0x0F 0 0 v) ∧
  ∀ (v : Word) (s : State),
    (v.toInt < 0 → ∃ t, exec (.jmp v) s = .next t ∧ StopsWith .negativeJumpTarget s t) ∧
    (0 ≤ v.toInt → s.reg .eq = 1#32 →
      ∃ t, exec (.jmp v) s = .next t ∧ (t.reg .ip).toInt = v.toInt - 1 ∧ WritesReg .ip (v - 1#32) s t) ∧
    (0 ≤ v.toInt → s.reg .eq = 0#32 → exec (.jmp v) s = .next s)

/-- The law of `Jmp` (spec/45_control.md R181, marked derived there): with `Eq` 0 the next index is the one after the
jump, with `Eq` 1 it is the target. -/
def Obligations.JmpContinuesAtTargetOrFallsThrough : Prop :=
  ∀ (s : State) (w : InstrWord) (v : Word), AboutToRun s w (.jmp v) → 0 ≤ v.toInt →
    (s.reg .eq = 0#32 → ∃ t, step s = .next t ∧ t.reg .ip = s.reg .ip + 1#32 ∧ t.run = .running) ∧
    (s.reg .eq = 1#32 → ∃ t, step s = .next t ∧ t.reg .ip = v ∧ t.run = .running)

/-- `Hlt` (spec/45_control.md R182, decision D15): the run state becomes `Halted` and nothing else changes; after its
step `Ip` is the next index. -/
def Obligations.HltHaltsAndIpStillAdvances : Prop :=
  EncodedAs .hlt 0x10 0 0 0#32 ∧
  (∀ s : State, exec .hlt s = .next { s with run := .halted }) ∧
  (∀ (s : State) (w : InstrWord), AboutToRun s w .hlt →
    ∃ t, step s = .next t ∧ t.run = .halted ∧ t.reg .ip = s.reg .ip + 1#32)

/-! ### Diagnostics -/

/-- `Dmp` (spec/46_diagnostics.md R203): one event with the ten registers in index order and every cell in index
order, whatever `Sp` is. -/
def Obligations.DmpShowsRegistersAndAllCells : Prop :=
  EncodedAs .dmp 0x11 0 0 0#32 ∧
  ∀ s : State, ∃ t cells, exec .dmp s = .next t ∧
    Emits [.dump [s.reg .a, s.reg .b, s.reg .c, s.reg .d, s.reg .e, s.reg .f, s.reg .ip, s.reg .sp, s.reg .st,
      s.reg .eq] cells] s t ∧
    cells.length = s.cfg.stackCap ∧ ∀ k : Nat, k < s.cfg.stackCap → cells[k]? = some (s.cell k)

/-- `Drg(reg)` (spec/46_diagnostics.md R204): one event with the register and its value. -/
def Obligations.DrgShowsTheRegister : Prop :=
  (∀ r : Reg, EncodedAs (.drg r) 0x12 r.index 0 0#32) ∧
  ∀ (r : Reg) (s : State), ∃ t, exec (.drg r) s = .next t ∧ Emits [.reg r (s.reg r)] s t

/-- `Dst` (spec/46_diagnostics.md R205, decision D21): one event with every cell that is not 0 and no other, in
increasing index, whatever `Sp` is; on a canonical stack, exactly the model's own cell list (log entry 4). -/
def Obligations.DstShowsTheNonzeroCells : Prop :=
  EncodedAs .dst 0x13 0 0 0#32 ∧
  ∀ s : State, ∃ t cells, exec .dst s = .next t ∧ Emits [.stackNZ cells] s t ∧
    (∀ (k : Nat) (v : Word), (k, v) ∈ cells ↔ k < s.cfg.stackCap ∧ s.cell k = v ∧ v ≠ 0#32) ∧
    cells.Pairwise (fun p q => p.1 < q.1) ∧ (StackOk s → cells = s.stk)

/-- `Prt(reg)` (spec/46_diagnostics.md R206): a value from 0 to 255 is emitted as a character code, any other has no
effect; it never faults. -/
def Obligations.PrtEmitsACharacterCode : Prop :=
  (∀ r : Reg, EncodedAs (.prt r) 0x14 r.index 0 0#32) ∧
  ∀ (r : Reg) (s : State),
    ((0 ≤ (s.reg r).toInt ∧ (s.reg r).toInt < 256) →
      ∃ t c, exec (.prt r) s = .next t ∧ Emits [.char c] s t ∧ (c.toNat : Int) = (s.reg r).toInt) ∧
    (¬ (0 ≤ (s.reg r).toInt ∧ (s.reg r).toInt < 256) → exec (.prt r) s = .next s)

/-- The diagnostic instructions never fault, and write no register, no cell and not the run state; what they show of
`Ip` is their own index (spec/46_diagnostics.md R202). -/
def Obligations.DiagnosticsAreReadOnly : Prop :=
  (∀ (i : Instr) (s : State), (i = .dmp ∨ i = .dst ∨ ∃ r, i = .drg r ∨ i = .prt r) →
    ∃ t, exec i s = .next t ∧ ∃ es, Emits es s t) ∧
  (∀ (s t : State) (w : InstrWord) (i : Instr), AboutToRun s w i →
    (i = .dmp ∨ i = .dst ∨ ∃ r, i = .drg r ∨ i = .prt r) → step s = .next t →
      KeepsRegsBut [.ip] s t ∧ t.reg .ip = s.reg .ip + 1#32 ∧ KeepsCells s t ∧ t.run = .running) ∧
  (∀ (s t : State) (w : InstrWord), AboutToRun s w (.drg .ip) → step s = .next t →
    Event.reg .ip (s.reg .ip) ∈ t.out) ∧
  (∀ (s t : State) (w : InstrWord), AboutToRun s w (.prt .ip) → (s.reg .ip).toNat < 256 → step s = .next t →
    Event.char ((s.reg .ip).setWidth 8) ∈ t.out) ∧
  (∀ (s t : State) (w : InstrWord), AboutToRun s w .dmp → step s = .next t →
    ∃ x cells, Event.dump x cells ∈ t.out ∧ x[6]? = some (s.reg .ip))

/-! ### A word at the next fetch -/

/-- A word placed at the next fetch is what the next step fetches, in a running block that holds nothing and whose
host accepts events; where the word decodes in some build, the next step runs the instruction it decodes to. It is the
model's way to run one instruction, no rule of the spec (log entries 2, 3 and 5). -/
def Obligations.PlacedWordIsTheNextOneFetched : Prop :=
  ∀ (s : State) (w : InstrWord),
    fetch (announce (placeWord s w)) = some w ∧ (placeWord s w).run = .running ∧ HostAccepts (placeWord s w) ∧
    ∀ (c : Config) (i : Instr), decode c w = .ok i →
      AboutToRun (placeWord s w) w i ∧ step (placeWord s w) = runDecoded w i (announce (placeWord s w))
end

