-- ==== Sys2Proof/Laws/State.lean ====
section
/-! SUPPORT. One lemma per field per update of `State`, true by `rfl`, and the laws of reading a register after a
write. -/

namespace Sys2Proof.Machine

@[simp] theorem putReg_cfg (s : State) (r : Reg) (v : Word) : (s.putReg r v).cfg = s.cfg := rfl
@[simp] theorem putReg_prog (s : State) (r : Reg) (v : Word) : (s.putReg r v).prog = s.prog := rfl
@[simp] theorem putReg_cfgDetails (s : State) (r : Reg) (v : Word) : (s.putReg r v).cfgDetails = s.cfgDetails := rfl
@[simp] theorem putReg_cfgInstructions (s : State) (r : Reg) (v : Word) : (s.putReg r v).cfgInstructions = s.cfgInstructions := rfl
@[simp] theorem putReg_regs (s : State) (r : Reg) (v : Word) : (s.putReg r v).regs = s.regs.put r v := rfl
@[simp] theorem putReg_stk (s : State) (r : Reg) (v : Word) : (s.putReg r v).stk = s.stk := rfl
@[simp] theorem putReg_run (s : State) (r : Reg) (v : Word) : (s.putReg r v).run = s.run := rfl
@[simp] theorem putReg_listed (s : State) (r : Reg) (v : Word) : (s.putReg r v).listed = s.listed := rfl
@[simp] theorem putReg_out (s : State) (r : Reg) (v : Word) : (s.putReg r v).out = s.out := rfl
@[simp] theorem putReg_outCredit (s : State) (r : Reg) (v : Word) : (s.putReg r v).outCredit = s.outCredit := rfl
@[simp] theorem putReg_hold (s : State) (r : Reg) (v : Word) : (s.putReg r v).hold = s.hold := rfl

@[simp] theorem emit_cfg (s : State) (e : Event) : (emit e s).cfg = s.cfg := rfl
@[simp] theorem emit_prog (s : State) (e : Event) : (emit e s).prog = s.prog := rfl
@[simp] theorem emit_cfgDetails (s : State) (e : Event) : (emit e s).cfgDetails = s.cfgDetails := rfl
@[simp] theorem emit_cfgInstructions (s : State) (e : Event) : (emit e s).cfgInstructions = s.cfgInstructions := rfl
@[simp] theorem emit_regs (s : State) (e : Event) : (emit e s).regs = s.regs := rfl
@[simp] theorem emit_stk (s : State) (e : Event) : (emit e s).stk = s.stk := rfl
@[simp] theorem emit_run (s : State) (e : Event) : (emit e s).run = s.run := rfl
@[simp] theorem emit_listed (s : State) (e : Event) : (emit e s).listed = s.listed := rfl
@[simp] theorem emit_out (s : State) (e : Event) : (emit e s).out = s.out ++ [e] := rfl
@[simp] theorem emit_outCredit (s : State) (e : Event) : (emit e s).outCredit = s.outCredit := rfl
@[simp] theorem emit_hold (s : State) (e : Event) : (emit e s).hold = s.hold := rfl

@[simp] theorem takeFault_cfg (s : State) (k : FaultKind) : (takeFault k s).cfg = s.cfg := rfl
@[simp] theorem takeFault_prog (s : State) (k : FaultKind) : (takeFault k s).prog = s.prog := rfl
@[simp] theorem takeFault_cfgDetails (s : State) (k : FaultKind) : (takeFault k s).cfgDetails = s.cfgDetails := rfl
@[simp] theorem takeFault_cfgInstructions (s : State) (k : FaultKind) : (takeFault k s).cfgInstructions = s.cfgInstructions := rfl
@[simp] theorem takeFault_regs (s : State) (k : FaultKind) : (takeFault k s).regs = s.regs := rfl
@[simp] theorem takeFault_stk (s : State) (k : FaultKind) : (takeFault k s).stk = s.stk := rfl
@[simp] theorem takeFault_run (s : State) (k : FaultKind) : (takeFault k s).run = .faulted k s.regs.ip := rfl
@[simp] theorem takeFault_listed (s : State) (k : FaultKind) : (takeFault k s).listed = s.listed := rfl
@[simp] theorem takeFault_out (s : State) (k : FaultKind) : (takeFault k s).out = s.out := rfl
@[simp] theorem takeFault_outCredit (s : State) (k : FaultKind) : (takeFault k s).outCredit = s.outCredit := rfl
@[simp] theorem takeFault_hold (s : State) (k : FaultKind) : (takeFault k s).hold = s.hold := rfl

@[simp] theorem assertReset_cfg (s : State) : (assertReset s).cfg = s.cfg := rfl
@[simp] theorem assertReset_prog (s : State) : (assertReset s).prog = s.prog := rfl
@[simp] theorem assertReset_cfgDetails (s : State) : (assertReset s).cfgDetails = s.cfgDetails := rfl
@[simp] theorem assertReset_cfgInstructions (s : State) : (assertReset s).cfgInstructions = s.cfgInstructions := rfl
@[simp] theorem assertReset_regs (s : State) : (assertReset s).regs = Regs.reset := rfl
@[simp] theorem assertReset_stk (s : State) : (assertReset s).stk = [] := rfl
@[simp] theorem assertReset_run (s : State) : (assertReset s).run = .running := rfl
@[simp] theorem assertReset_listed (s : State) : (assertReset s).listed = false := rfl
@[simp] theorem assertReset_out (s : State) : (assertReset s).out = [] := rfl
@[simp] theorem assertReset_outCredit (s : State) : (assertReset s).outCredit = s.outCredit := rfl
@[simp] theorem assertReset_hold (s : State) : (assertReset s).hold = none := rfl

@[simp] theorem acceptEvents_cfg (s : State) (n : Nat) : (acceptEvents n s).cfg = s.cfg := rfl
@[simp] theorem acceptEvents_prog (s : State) (n : Nat) : (acceptEvents n s).prog = s.prog := rfl
@[simp] theorem acceptEvents_cfgDetails (s : State) (n : Nat) : (acceptEvents n s).cfgDetails = s.cfgDetails := rfl
@[simp] theorem acceptEvents_cfgInstructions (s : State) (n : Nat) : (acceptEvents n s).cfgInstructions = s.cfgInstructions := rfl
@[simp] theorem acceptEvents_regs (s : State) (n : Nat) : (acceptEvents n s).regs = s.regs := rfl
@[simp] theorem acceptEvents_stk (s : State) (n : Nat) : (acceptEvents n s).stk = s.stk := rfl
@[simp] theorem acceptEvents_run (s : State) (n : Nat) : (acceptEvents n s).run = s.run := rfl
@[simp] theorem acceptEvents_listed (s : State) (n : Nat) : (acceptEvents n s).listed = s.listed := rfl
@[simp] theorem acceptEvents_out (s : State) (n : Nat) : (acceptEvents n s).out = s.out := rfl
@[simp] theorem acceptEvents_outCredit (s : State) (n : Nat) : (acceptEvents n s).outCredit = some n := rfl
@[simp] theorem acceptEvents_hold (s : State) (n : Nat) : (acceptEvents n s).hold = s.hold := rfl

/-- Reading the register just written. -/
@[simp] theorem Regs.get_put_same (x : Regs) (r : Reg) (v : Word) : (x.put r v).get r = v := by
  cases r <;> rfl

/-- Reading another register than the one written. -/
theorem Regs.get_put_ne (x : Regs) {r q : Reg} (v : Word) (h : q ≠ r) : (x.put r v).get q = x.get q := by
  cases r <;> cases q <;> first | rfl | exact absurd rfl h

/-- Reading a register after a write, in one equation. -/
theorem Regs.get_put (x : Regs) (r q : Reg) (v : Word) :
    (x.put r v).get q = if q = r then v else x.get q := by
  split
  · next h => subst h; exact Regs.get_put_same x q v
  · next h => exact Regs.get_put_ne x v h

/-- Two register files that agree on every register are equal. -/
theorem Regs.ext_get {x y : Regs} (h : ∀ r, x.get r = y.get r) : x = y := by
  cases x; cases y
  have ha := h .a; have hb := h .b; have hc := h .c; have hd := h .d; have he := h .e
  have hf := h .f; have hip := h .ip; have hsp := h .sp; have hst := h .st; have heq := h .eq
  simp only [Regs.get] at ha hb hc hd he hf hip hsp hst heq
  simp [*]

@[simp] theorem reg_putReg_same (s : State) (r : Reg) (v : Word) : (s.putReg r v).reg r = v :=
  Regs.get_put_same s.regs r v

theorem reg_putReg_ne (s : State) {r q : Reg} (v : Word) (h : q ≠ r) : (s.putReg r v).reg q = s.reg q :=
  Regs.get_put_ne s.regs v h

theorem reg_putReg (s : State) (r q : Reg) (v : Word) :
    (s.putReg r v).reg q = if q = r then v else s.reg q :=
  Regs.get_put s.regs r q v

@[simp] theorem reg_emit (s : State) (e : Event) (r : Reg) : (emit e s).reg r = s.reg r := rfl
@[simp] theorem reg_takeFault (s : State) (k : FaultKind) (r : Reg) : (takeFault k s).reg r = s.reg r := rfl

@[simp] theorem cell_putReg (s : State) (r : Reg) (v : Word) (k : Nat) : (s.putReg r v).cell k = s.cell k := rfl
@[simp] theorem cell_emit (s : State) (e : Event) (k : Nat) : (emit e s).cell k = s.cell k := rfl
@[simp] theorem cell_takeFault (s : State) (f : FaultKind) (k : Nat) : (takeFault f s).cell k = s.cell k := rfl

theorem regs_ip (s : State) : s.regs.ip = s.reg .ip := rfl
theorem regs_sp (s : State) : s.regs.sp = s.reg .sp := rfl
theorem regs_st (s : State) : s.regs.st = s.reg .st := rfl
theorem regs_eq (s : State) : s.regs.eq = s.reg .eq := rfl

end Sys2Proof.Machine
end

