-- ==== Sys2Proof/Laws/Stack.lean ====
section
/-! SUPPORT. The laws of the Value Stack's cell list: a read after a write, and the canonical form, which every
write keeps (spec/10_state.md R31). -/

namespace Sys2Proof.Machine

theorem Stack.wfFrom_mono {lo lo' : Nat} (h : lo' ≤ lo) : ∀ m : Stack, m.wfFrom lo = true → m.wfFrom lo' = true
  | [], _ => rfl
  | (j, v) :: rest, hm => by
    simp only [Stack.wfFrom, Bool.and_eq_true, decide_eq_true_eq] at hm ⊢
    exact ⟨⟨by omega, hm.1.2⟩, hm.2⟩

/-- Below the first index of a canonical list every cell reads 0. -/
theorem Stack.read_eq_zero_of_lt : ∀ (m : Stack) {lo k : Nat}, m.wfFrom lo = true → k < lo → m.read k = 0#32
  | [], _, _, _, _ => rfl
  | (j, v) :: rest, lo, k, hm, hk => by
    simp only [Stack.wfFrom, Bool.and_eq_true, decide_eq_true_eq] at hm
    have hne : ¬ j = k := by omega
    rw [Stack.read, if_neg hne]
    exact Stack.read_eq_zero_of_lt rest hm.2 (by omega)

/-- Writing keeps the canonical form. -/
theorem Stack.write_wfFrom : ∀ (m : Stack) {lo k : Nat} (v : Word), m.wfFrom lo = true → lo ≤ k →
    (m.write k v).wfFrom lo = true
  | [], lo, k, v, _, hk => by
    by_cases hv : v = 0#32 <;> simp [Stack.write, Stack.wfFrom, hv, hk]
  | (j, u) :: rest, lo, k, v, hm, hk => by
    simp only [Stack.wfFrom, Bool.and_eq_true, decide_eq_true_eq] at hm
    obtain ⟨⟨hj, hu⟩, hr⟩ := hm
    rw [Stack.write]
    split
    · next hlt =>
      split
      · next hv => simp [Stack.wfFrom, hj, hu, hr]
      · next hv =>
        simp only [Stack.wfFrom, Bool.and_eq_true, decide_eq_true_eq]
        exact ⟨⟨hk, hv⟩, ⟨by omega, hu⟩, hr⟩
    · split
      · next _ heq =>
        split
        · exact Stack.wfFrom_mono (by omega) rest hr
        · next hv =>
          simp only [Stack.wfFrom, Bool.and_eq_true, decide_eq_true_eq]
          exact ⟨⟨hk, hv⟩, by rw [heq]; exact hr⟩
      · next h1 h2 =>
        simp only [Stack.wfFrom, Bool.and_eq_true, decide_eq_true_eq]
        exact ⟨⟨hj, hu⟩, Stack.write_wfFrom rest v hr (by omega)⟩

/-- Every write keeps the canonical form of the cell list. -/
theorem Stack.write_wf (m : Stack) (k : Nat) (v : Word) (h : m.wf = true) : (m.write k v).wf = true :=
  Stack.write_wfFrom m v h (Nat.zero_le k)

/-- A write below the capacity lists no cell that does not exist. -/
theorem Stack.write_below {cap k : Nat} (v : Word) (hk : k < cap) :
    ∀ m : Stack, m.below cap = true → (m.write k v).below cap = true
  | [], _ => by by_cases hv : v = 0#32 <;> simp [Stack.write, Stack.below, hv, hk]
  | (j, u) :: rest, hm => by
    have hm' := hm
    simp only [Stack.below, Bool.and_eq_true, decide_eq_true_eq] at hm'
    rw [Stack.write]
    split
    · split
      · exact hm
      · simp [Stack.below, hk, hm'.1, hm'.2]
    · split
      · split
        · exact hm'.2
        · simp [Stack.below, hk, hm'.2]
      · simp [Stack.below, hm'.1, Stack.write_below v hk rest hm'.2]

/-- A read after a write: the written cell holds the value, every other cell what it held. -/
theorem Stack.read_write : ∀ (m : Stack) {lo : Nat} (k j : Nat) (v : Word), m.wfFrom lo = true →
    (m.write k v).read j = if j = k then v else m.read j
  | [], _, k, j, v, _ => by
    rw [Stack.write]
    by_cases hjk : j = k
    · subst hjk; by_cases hv : v = 0#32 <;> simp [hv, Stack.read]
    · have hkj : ¬ k = j := fun h => hjk h.symm
      by_cases hv : v = 0#32 <;> simp [hv, Stack.read, hjk, hkj]
  | (i, u) :: rest, lo, k, j, v, hm => by
    simp only [Stack.wfFrom, Bool.and_eq_true, decide_eq_true_eq] at hm
    obtain ⟨⟨_, _⟩, hr⟩ := hm
    have below : ∀ {q : Nat}, q < i + 1 → Stack.read rest q = 0#32 := fun hq => Stack.read_eq_zero_of_lt rest hr hq
    rw [Stack.write]
    by_cases h1 : k < i
    · rw [if_pos h1]
      by_cases hv : v = 0#32
      · rw [if_pos hv]
        by_cases hjk : j = k
        · subst hjk
          have : ¬ i = j := by omega
          rw [if_pos rfl, Stack.read, if_neg this, below (by omega), hv]
        · rw [if_neg hjk]
      · rw [if_neg hv, Stack.read]
        by_cases hjk : j = k
        · rw [if_pos hjk.symm, if_pos hjk]
        · rw [if_neg (fun h => hjk h.symm), if_neg hjk]
    · rw [if_neg h1]
      by_cases h2 : k = i
      · subst h2
        rw [if_pos rfl]
        by_cases hv : v = 0#32
        · rw [if_pos hv]
          by_cases hjk : j = k
          · rw [if_pos hjk, hjk, below (by omega), hv]
          · rw [if_neg hjk, Stack.read, if_neg (fun h => hjk h.symm)]
        · rw [if_neg hv, Stack.read, Stack.read]
          by_cases hjk : j = k
          · rw [if_pos hjk.symm, if_pos hjk]
          · rw [if_neg (fun h => hjk h.symm), if_neg hjk, if_neg (fun h => hjk h.symm)]
      · rw [if_neg h2, Stack.read, Stack.read, Stack.read_write rest k j v hr]
        by_cases hij : i = j
        · subst hij
          have : ¬ i = k := fun h => h2 h.symm
          rw [if_pos rfl, if_pos rfl, if_neg this]
        · rw [if_neg hij, if_neg hij]

/-- Canonical lists that read alike at every index are equal: equal stacks are equal data. -/
theorem Stack.eq_of_read : ∀ (m n : Stack) {lo : Nat}, m.wfFrom lo = true → n.wfFrom lo = true →
    (∀ k, m.read k = n.read k) → m = n
  | [], [], _, _, _, _ => rfl
  | [], (j, v) :: rest, lo, _, hn, h => by
    simp only [Stack.wfFrom, Bool.and_eq_true, decide_eq_true_eq] at hn
    have := h j
    simp only [Stack.read, if_true] at this
    exact absurd this.symm hn.1.2
  | (j, v) :: rest, [], lo, hm, _, h => by
    simp only [Stack.wfFrom, Bool.and_eq_true, decide_eq_true_eq] at hm
    have := h j
    simp only [Stack.read, if_true] at this
    exact absurd this hm.1.2
  | (i, u) :: m, (j, v) :: n, lo, hm, hn, h => by
    simp only [Stack.wfFrom, Bool.and_eq_true, decide_eq_true_eq] at hm hn
    have hij : i = j := by
      rcases Nat.lt_trichotomy i j with hlt | heq | hgt
      · have hi := h i
        rw [Stack.read, if_pos rfl, Stack.read, if_neg (by omega), Stack.read_eq_zero_of_lt n hn.2 (by omega)] at hi
        exact absurd hi hm.1.2
      · exact heq
      · have hj := h j
        rw [Stack.read, if_neg (by omega), Stack.read_eq_zero_of_lt m hm.2 (by omega), Stack.read, if_pos rfl] at hj
        exact absurd hj.symm hn.1.2
    subst hij
    have huv : u = v := by
      have := h i
      simpa only [Stack.read, if_true] using this
    subst huv
    have htl : m = n := Stack.eq_of_read m n hm.2 hn.2 fun k => by
      by_cases hik : i = k
      · subst hik
        rw [Stack.read_eq_zero_of_lt m hm.2 (by omega), Stack.read_eq_zero_of_lt n hn.2 (by omega)]
      · have := h k
        rwa [Stack.read, if_neg hik, Stack.read, if_neg hik] at this
    rw [htl]

/-- The indices of a list below the capacity are below it. -/
theorem Stack.below_of_mem {cap : Nat} : ∀ (m : Stack), m.below cap = true → ∀ p ∈ m, p.1 < cap
  | [], _, _, h => absurd h List.not_mem_nil
  | (j, v) :: rest, hb, p, h => by
    simp only [Stack.below, Bool.and_eq_true, decide_eq_true_eq] at hb
    rcases List.mem_cons.mp h with rfl | h
    · exact hb.1
    · exact Stack.below_of_mem rest hb.2 p h

/-- A canonical list has exactly the pairs of an index and its value that is not 0. -/
theorem Stack.mem_iff_read : ∀ (m : Stack) {lo : Nat}, m.wfFrom lo = true →
    ∀ (k : Nat) (v : Word), (k, v) ∈ m ↔ m.read k = v ∧ v ≠ 0#32
  | [], _, _, k, v => by
    simp only [List.not_mem_nil, Stack.read, false_iff, not_and, not_not]
    exact fun h => h.symm
  | (j, u) :: rest, lo, hm, k, v => by
    simp only [Stack.wfFrom, Bool.and_eq_true, decide_eq_true_eq] at hm
    have ih := Stack.mem_iff_read rest hm.2 k v
    rw [List.mem_cons, Stack.read]
    by_cases hjk : j = k
    · subst hjk
      have hz := Stack.read_eq_zero_of_lt rest hm.2 (Nat.lt_succ_self j)
      have hno : (j, v) ∉ rest := by rw [ih, hz]; exact fun h => h.2 h.1.symm
      rw [if_pos rfl, or_iff_left hno]
      constructor
      · intro h; cases h; exact ⟨rfl, hm.1.2⟩
      · rintro ⟨rfl, _⟩; rfl
    · have hne : (k, v) ≠ (j, u) := fun h => hjk (congrArg Prod.fst h).symm
      rw [if_neg hjk, ← ih, or_iff_right hne]

/-- The indices of a canonical list rise strictly, from its lower bound on. -/
theorem Stack.pairwise_of_wfFrom : ∀ (m : Stack) {lo : Nat}, m.wfFrom lo = true →
    m.Pairwise (fun p q => p.1 < q.1) ∧ ∀ p ∈ m, lo ≤ p.1
  | [], _, _ => ⟨List.Pairwise.nil, fun _ h => absurd h List.not_mem_nil⟩
  | (j, u) :: rest, lo, hm => by
    simp only [Stack.wfFrom, Bool.and_eq_true, decide_eq_true_eq] at hm
    obtain ⟨h1, h2⟩ := Stack.pairwise_of_wfFrom rest hm.2
    refine ⟨List.pairwise_cons.mpr ⟨fun p hp => h2 p hp, h1⟩, fun p hp => ?_⟩
    rcases List.mem_cons.mp hp with rfl | h
    · exact hm.1.1
    · have := h2 p h; omega

end Sys2Proof.Machine
end

