-- ==== Sys2Proof/Laws/Ops.lean ====
section
/-! SUPPORT. For each operation the meanings share, one lemma that says everything it can do. -/

namespace Sys2Proof.Machine

/-! ### Words -/

/-- `wrap32` of a word's own value is the word. -/
@[simp] theorem wrap32_toInt (v : Word) : wrap32 v.toInt = v := BitVec.ofInt_toInt

/-- `wrap32` keeps a value that is in the range of a word. -/
theorem toInt_wrap32 {n : Int} (h1 : -2147483648 ≤ n) (h2 : n ≤ 2147483647) : (wrap32 n).toInt = n := by
  unfold wrap32
  rw [BitVec.toInt_ofInt, Int.bmod_eq_of_le] <;> omega

theorem toInt_lo (v : Word) : -2147483648 ≤ v.toInt := by have := v.le_toInt; simpa using this
theorem toInt_hi (v : Word) : v.toInt ≤ 2147483647 := by have := v.toInt_lt; omega

/-- A word is determined by its signed value. -/
theorem eq_of_toInt {v u : Word} (h : v.toInt = u.toInt) : v = u := BitVec.eq_of_toInt_eq h

/-! ### Cells -/

theorem isCell_iff (s : State) (k : Int) : s.isCell k = true ↔ 0 ≤ k ∧ k < (s.cfg.stackCap : Int) := by
  simp [State.isCell]

/-- A read answers exactly for the cells that exist, with the cell's value. -/
theorem stkRead_eq_some {k : Int} {s : State} {v : Word} :
    stkRead k s = some v ↔ 0 ≤ k ∧ k < (s.cfg.stackCap : Int) ∧ v = s.cell k.toNat := by
  unfold stkRead
  by_cases h : s.isCell k = true
  · rw [if_pos h]
    rw [isCell_iff] at h
    simp [h.1, h.2, eq_comm]
  · rw [if_neg h]
    rw [isCell_iff] at h
    simp only [reduceCtorEq, false_iff]
    rintro ⟨h1, h2, _⟩
    exact h ⟨h1, h2⟩

/-- A write answers exactly for the cells that exist, with the cell replaced. -/
theorem stkWrite_eq_some {k : Int} {v : Word} {s t : State} :
    stkWrite k v s = some t ↔
      0 ≤ k ∧ k < (s.cfg.stackCap : Int) ∧ t = { s with stk := Stack.write s.stk k.toNat v } := by
  unfold stkWrite
  by_cases h : s.isCell k = true
  · rw [if_pos h]
    rw [isCell_iff] at h
    simp [h.1, h.2, eq_comm]
  · rw [if_neg h]
    rw [isCell_iff] at h
    simp only [reduceCtorEq, false_iff]
    rintro ⟨h1, h2, _⟩
    exact h ⟨h1, h2⟩

/-! ### The write port -/

/-- The domain of a register, spelled out. -/
theorem inDomain_iff {cap : Nat} {r : Reg} {v : Word} :
    inDomain cap r v = true ↔
      (r = .sp → -1 ≤ v.toInt ∧ v.toInt ≤ (cap : Int) - 1) ∧ (r = .eq → v = 0#32 ∨ v = 1#32) := by
  cases r <;> simp [inDomain]

/-- Everything a write through the port can do. -/
theorem writeReg_cases (r : Reg) (v : Word) (mode : WriteMode) (s : State) :
    (inDomain s.cfg.stackCap r v = true ∧ writeReg r v mode s = s.putReg r (portValue r v mode)) ∨
    (inDomain s.cfg.stackCap r v = false ∧ writeReg r v mode s = takeFault .registerDomainViolation s) := by
  unfold writeReg
  cases h : inDomain s.cfg.stackCap r v
  · exact .inr ⟨rfl, by simp⟩
  · exact .inl ⟨rfl, by simp⟩

/-- Outside `Ip` the port stores the value it is given. -/
theorem portValue_of_ne {r : Reg} (v : Word) (mode : WriteMode) (h : r ≠ .ip) : portValue r v mode = v := by
  cases r <;> cases mode <;> first | rfl | exact absurd rfl h

/-- In mode `plain` the port stores the value it is given. -/
@[simp] theorem portValue_plain (r : Reg) (v : Word) : portValue r v .plain = v := by cases r <;> rfl

/-- A move into `Ip` stores the value minus 1. -/
@[simp] theorem portValue_ip_move (v : Word) : portValue .ip v .move = wrap32 (v.toInt - 1) := rfl

/-! ### The stack operations -/

/-- Everything a push can do. -/
theorem pushValue_cases (v : Word) (s : State) :
    (regOperand .sp s + 1 ≥ (s.cfg.stackCap : Int) ∧ pushValue v s = .next (takeFault .stackOverflow s)) ∨
    (regOperand .sp s + 1 < (s.cfg.stackCap : Int) ∧ regOperand .sp s + 1 < 0 ∧
      pushValue v s = .fault .noStackCell) ∨
    (regOperand .sp s + 1 < (s.cfg.stackCap : Int) ∧ 0 ≤ regOperand .sp s + 1 ∧
      pushValue v s = .next (({ s with stk := Stack.write s.stk (regOperand .sp s + 1).toNat v }.putReg .sp
        (wrap32 (regOperand .sp s + 1))).putReg .st v)) := by
  unfold pushValue
  by_cases h : regOperand .sp s + 1 ≥ (s.cfg.stackCap : Int)
  · exact .inl ⟨h, by simp [h]⟩
  · simp only [h, if_false, false_and, false_or]
    have hlt : regOperand .sp s + 1 < (s.cfg.stackCap : Int) := by omega
    by_cases h0 : 0 ≤ regOperand .sp s + 1
    · right
      have : stkWrite (regOperand .sp s + 1) v s =
          some { s with stk := Stack.write s.stk (regOperand .sp s + 1).toNat v } :=
        stkWrite_eq_some.mpr ⟨h0, hlt, rfl⟩
      exact ⟨hlt, h0, by rw [this]⟩
    · left
      have hc : ¬ s.isCell (regOperand .sp s + 1) = true := by rw [isCell_iff]; omega
      refine ⟨hlt, by omega, ?_⟩
      rw [show stkWrite (regOperand .sp s + 1) v s = none by simp [stkWrite, hc]]

/-- What `St` is refreshed with after a pop to `k`: the cell `k`, or 0 for the empty stack. -/
def mirrorWord (k : Int) (s : State) : Word := if k ≥ 0 then s.cell k.toNat else 0#32

/-- A pop answers exactly when `Sp` is a cell, with `Sp` one lower and `St` refreshed. -/
theorem popValue_eq {s : State} (h0 : 0 ≤ regOperand .sp s) :
    popValue s = if regOperand .sp s < (s.cfg.stackCap : Int) then
      some (s.cell (regOperand .sp s).toNat, (s.putReg .sp (wrap32 (regOperand .sp s - 1))).putReg .st
        (mirrorWord (regOperand .sp s - 1) s))
    else none := by
  unfold popValue topValue mirrorAt mirrorWord
  by_cases h : regOperand .sp s < (s.cfg.stackCap : Int)
  · have h1 : stkRead (regOperand .sp s) s = some (s.cell (regOperand .sp s).toNat) :=
      stkRead_eq_some.mpr ⟨h0, h, rfl⟩
    rw [if_pos h, h1]
    by_cases h2 : regOperand .sp s - 1 ≥ 0
    · have h3 : stkRead (regOperand .sp s - 1) s = some (s.cell (regOperand .sp s - 1).toNat) :=
        stkRead_eq_some.mpr ⟨h2, by omega, rfl⟩
      simp only [if_pos h2, h3]
    · simp only [if_neg h2]
  · have hc : ¬ s.isCell (regOperand .sp s) = true := by rw [isCell_iff]; omega
    rw [if_neg h, show stkRead (regOperand .sp s) s = none by simp [stkRead, hc]]

/-- Everything `Pop` can do. -/
theorem execPop_cases (s : State) :
    (regOperand .sp s < 0 ∧ execPop s = .next (takeFault .stackUnderflow s)) ∨
    (0 ≤ regOperand .sp s ∧ (s.cfg.stackCap : Int) ≤ regOperand .sp s ∧ execPop s = .fault .noStackCell) ∨
    (0 ≤ regOperand .sp s ∧ regOperand .sp s < (s.cfg.stackCap : Int) ∧
      execPop s = .next ((s.putReg .sp (wrap32 (regOperand .sp s - 1))).putReg .st
        (mirrorWord (regOperand .sp s - 1) s))) := by
  unfold execPop
  by_cases h : regOperand .sp s < 0
  · exact .inl ⟨h, by rw [if_pos h]⟩
  · have h0 : 0 ≤ regOperand .sp s := by omega
    rw [if_neg h, popValue_eq h0]
    by_cases hc : regOperand .sp s < (s.cfg.stackCap : Int)
    · exact .inr (.inr ⟨h0, hc, by rw [if_pos hc]⟩)
    · exact .inr (.inl ⟨h0, by omega, by rw [if_neg hc]⟩)

/-- Everything `Pek` can do. -/
theorem execPek_cases (s : State) :
    (regOperand .sp s < 0 ∧ execPek s = .next (takeFault .stackUnderflow s)) ∨
    (0 ≤ regOperand .sp s ∧ (s.cfg.stackCap : Int) ≤ regOperand .sp s ∧ execPek s = .fault .noStackCell) ∨
    (0 ≤ regOperand .sp s ∧ regOperand .sp s < (s.cfg.stackCap : Int) ∧
      execPek s = .next (emit (.peek (s.reg .sp) (s.cell (regOperand .sp s).toNat))
        (s.putReg .st (s.cell (regOperand .sp s).toNat)))) := by
  unfold execPek topValue
  by_cases h : regOperand .sp s < 0
  · exact .inl ⟨h, by rw [if_pos h]⟩
  · have h0 : 0 ≤ regOperand .sp s := by omega
    rw [if_neg h]
    by_cases hc : regOperand .sp s < (s.cfg.stackCap : Int)
    · have h1 : stkRead (regOperand .sp s) s = some (s.cell (regOperand .sp s).toNat) :=
        stkRead_eq_some.mpr ⟨h0, hc, rfl⟩
      exact .inr (.inr ⟨h0, hc, by rw [h1]⟩)
    · have hn : ¬ s.isCell (regOperand .sp s) = true := by rw [isCell_iff]; omega
      exact .inr (.inl ⟨h0, by omega, by rw [show stkRead (regOperand .sp s) s = none by simp [stkRead, hn]]⟩)

/-! ### The arithmetic, comparison and control operations -/

/-- Everything an arithmetic operation can do. -/
theorem arithWith_cases (op : Int → Int → Int) (ra rb : Reg) (s : State) :
    (inDomain s.cfg.stackCap ra (wrap32 (op (regOperand ra s) (regOperand rb s))) = true ∧
      arithWith op ra rb s = s.putReg ra (wrap32 (op (regOperand ra s) (regOperand rb s)))) ∨
    (inDomain s.cfg.stackCap ra (wrap32 (op (regOperand ra s) (regOperand rb s))) = false ∧
      arithWith op ra rb s = takeFault .registerDomainViolation s) := by
  simpa [arithWith] using writeReg_cases ra (wrap32 (op (regOperand ra s) (regOperand rb s))) .plain s

/-- Everything `Div` can do. -/
theorem execDiv_cases (ra rb : Reg) (s : State) :
    (regOperand rb s = 0 ∧ execDiv ra rb s = .next (takeFault .divisionByZero s)) ∨
    (regOperand rb s ≠ 0 ∧ execDiv ra rb s = .next (arithWith tdiv ra rb s)) := by
  unfold execDiv
  by_cases h : regOperand rb s = 0
  · exact .inl ⟨h, by rw [if_pos h]⟩
  · exact .inr ⟨h, by rw [if_neg h]⟩

/-- Everything `Jmp` can do. -/
theorem execJmp_cases (target : Word) (s : State) :
    (target.toInt < 0 ∧ execJmp target s = .next (takeFault .negativeJumpTarget s)) ∨
    (0 ≤ target.toInt ∧ s.reg .eq = 1#32 ∧
      execJmp target s = .next (s.putReg .ip (wrap32 (target.toInt - 1)))) ∨
    (0 ≤ target.toInt ∧ s.reg .eq ≠ 1#32 ∧ execJmp target s = .next s) := by
  unfold execJmp immOperand regOperand
  by_cases h : target.toInt < 0
  · exact .inl ⟨h, by rw [if_pos h]⟩
  · rw [if_neg h]
    by_cases he : s.reg .eq = 1#32
    · exact .inr (.inl ⟨by omega, he, by simp [he]⟩)
    · have : ¬ (s.reg .eq).toInt = 1 := fun hh => he (eq_of_toInt (by rw [hh]; decide))
      exact .inr (.inr ⟨by omega, he, by rw [if_neg this]⟩)

/-- Everything `Prt` can do. -/
theorem execPrt_cases (r : Reg) (s : State) :
    ((0 ≤ regOperand r s ∧ regOperand r s < 256) ∧
      execPrt r s = .next (emit (.char (BitVec.ofInt 8 (regOperand r s))) s)) ∨
    (¬ (0 ≤ regOperand r s ∧ regOperand r s < 256) ∧ execPrt r s = .next s) := by
  unfold execPrt
  by_cases h : 0 ≤ regOperand r s ∧ regOperand r s < 256
  · exact .inl ⟨h, by rw [if_pos h]⟩
  · exact .inr ⟨h, by rw [if_neg h]⟩

/-- The wrapped predecessor of a signed value is the word minus 1. -/
theorem wrap32_sub_one (v : Word) : wrap32 (v.toInt - 1) = v - 1#32 := by
  apply eq_of_toInt
  simp [wrap32, BitVec.toInt_ofInt, BitVec.toInt_sub]

/-- The code `Prt` shows of a value that is not negative is the low byte of the register. -/
theorem charCode_eq {v : Word} (h0 : 0 ≤ v.toInt) : BitVec.ofInt 8 v.toInt = v.setWidth 8 := by
  have hn : v.toInt = (v.toNat : Int) := by
    have := v.isLt
    rw [BitVec.toInt_eq_toNat_cond] at h0 ⊢
    split at h0 <;> split <;> omega
  rw [hn]
  apply BitVec.eq_of_toNat_eq
  simp

end Sys2Proof.Machine
end

