-- ==== Sys2Proof/Laws/Exec.lean ====
section
/-! SUPPORT. What every meaning has in common: it reads neither the program, the flags, `listed`, the channel nor the
host's side of the port, and appends to the channel at most. -/

namespace Sys2Proof.Machine

/-- `s` with other inputs and another channel: the part of the state no handler reads. -/
def State.rehost (s h : State) : State :=
  { s with prog := h.prog, cfgDetails := h.cfgDetails, cfgInstructions := h.cfgInstructions, listed := h.listed,
           out := h.out, outCredit := h.outCredit, hold := h.hold }

/-- What `exec` may do: fault in the model, or append events and answer the same under every `rehost`. -/
def HostBlind (i : Instr) (s h : State) : Prop :=
  (∃ r, exec i s = .fault r ∧ exec i (s.rehost h) = .fault r) ∨
  (∃ (t : State) (es : List Event), exec i s = .next t ∧ t.out = s.out ++ es ∧
    exec i (s.rehost h) = .next (t.rehost { h with out := h.out ++ es }) ∧
    t.cfg = s.cfg ∧ t.prog = s.prog ∧ t.cfgDetails = s.cfgDetails ∧ t.cfgInstructions = s.cfgInstructions ∧
    t.listed = s.listed ∧ t.outCredit = s.outCredit ∧ t.hold = s.hold)

/-- A meaning that emits nothing is host-blind when its answer commutes with `rehost`. -/
theorem HostBlind.quiet {i : Instr} {s h t : State} (h1 : exec i s = .next t)
    (h2 : exec i (s.rehost h) = .next (t.rehost h)) (hk : t.rehost s = t ∧ t.cfg = s.cfg) : HostBlind i s h := by
  obtain ⟨hk, hc⟩ := hk
  have hf : ∀ {α} (f : State → α), f (t.rehost s) = f t := fun f => by rw [hk]
  refine .inr ⟨t, [], h1, ?_, ?_, hc, (hf State.prog).symm, (hf State.cfgDetails).symm, (hf State.cfgInstructions).symm,
    (hf State.listed).symm, (hf State.outCredit).symm, (hf State.hold).symm⟩
  · rw [List.append_nil]; exact (hf State.out).symm
  · rw [h2, List.append_nil]

/-- A meaning that emits one event and writes no more than registers is host-blind. -/
theorem HostBlind.loud {i : Instr} {s h t : State} {e : Event} (h1 : exec i s = .next (emit e t))
    (h2 : exec i (s.rehost h) = .next (emit e (t.rehost h))) (hk : t.rehost s = t ∧ t.cfg = s.cfg) :
    HostBlind i s h := by
  obtain ⟨hk, hc⟩ := hk
  have hf : ∀ {α} (f : State → α), f (t.rehost s) = f t := fun f => by rw [hk]
  refine .inr ⟨emit e t, [e], h1, ?_, ?_, hc, (hf State.prog).symm, (hf State.cfgDetails).symm, (hf State.cfgInstructions).symm,
    (hf State.listed).symm, (hf State.outCredit).symm, (hf State.hold).symm⟩
  · have : s.out = t.out := hf State.out
    rw [this]; rfl
  · rw [h2]; rfl

theorem writeReg_rehost (r : Reg) (v : Word) (mode : WriteMode) (s h : State) :
    writeReg r v mode (s.rehost h) = (writeReg r v mode s).rehost h := by
  rcases writeReg_cases r v mode s with ⟨hd, he⟩ | ⟨hd, he⟩
  · rw [he]
    rcases writeReg_cases r v mode (s.rehost h) with ⟨_, he'⟩ | ⟨hd', _⟩
    · rw [he']; rfl
    · exact absurd (hd.symm.trans hd') (by simp)
  · rw [he]
    rcases writeReg_cases r v mode (s.rehost h) with ⟨hd', _⟩ | ⟨_, he'⟩
    · exact absurd (hd.symm.trans hd') (by simp)
    · rw [he']; rfl

/-- A write through the port changes registers or the run state, nothing else. -/
theorem writeReg_keeps (r : Reg) (v : Word) (mode : WriteMode) (s : State) :
    (writeReg r v mode s).rehost s = writeReg r v mode s ∧ (writeReg r v mode s).cfg = s.cfg := by
  rcases writeReg_cases r v mode s with ⟨_, he⟩ | ⟨_, he⟩ <;> rw [he] <;> exact ⟨rfl, rfl⟩

theorem arithWith_hostBlind {i : Instr} {op : Int → Int → Int} {ra rb : Reg} {s h : State}
    (h1 : exec i s = .next (arithWith op ra rb s))
    (h2 : exec i (s.rehost h) = .next (arithWith op ra rb (s.rehost h))) : HostBlind i s h :=
  .quiet h1 (h2.trans (congrArg _ (writeReg_rehost _ _ _ s h))) (writeReg_keeps _ _ _ s)

/-- Every handler is host-blind (spec/10_state.md R35, R36; 20_memory.md R41). -/
theorem exec_hostBlind (i : Instr) (s h : State) : HostBlind i s h := by
  cases i with
  | psh v =>
    rcases pushValue_cases v s with ⟨hc, he⟩ | ⟨hc, hn, he⟩ | ⟨hc, hn, he⟩ <;>
      rcases pushValue_cases v (s.rehost h) with ⟨hc', he'⟩ | ⟨hc', hn', he'⟩ | ⟨hc', hn', he'⟩ <;>
      simp only [regOperand, State.reg, State.rehost] at hc hc' <;> try omega
    · exact .quiet he he' ⟨rfl, rfl⟩
    · exact .inl ⟨_, he, he'⟩
    · simp only [regOperand, State.reg, State.rehost] at hn hn'; omega
    · simp only [regOperand, State.reg, State.rehost] at hn hn'; omega
    · exact .quiet he he' ⟨rfl, rfl⟩
  | pop =>
    rcases execPop_cases s with ⟨hc, he⟩ | ⟨hc, hn, he⟩ | ⟨hc, hn, he⟩ <;>
      rcases execPop_cases (s.rehost h) with ⟨hc', he'⟩ | ⟨hc', hn', he'⟩ | ⟨hc', hn', he'⟩ <;>
      simp only [regOperand, State.reg, State.rehost] at hc hc' <;> try omega
    · exact .quiet he he' ⟨rfl, rfl⟩
    · exact .inl ⟨_, he, he'⟩
    · simp only [regOperand, State.reg, State.rehost] at hn hn'; omega
    · simp only [regOperand, State.reg, State.rehost] at hn hn'; omega
    · exact .quiet he he' ⟨rfl, rfl⟩
  | pek =>
    rcases execPek_cases s with ⟨hc, he⟩ | ⟨hc, hn, he⟩ | ⟨hc, hn, he⟩ <;>
      rcases execPek_cases (s.rehost h) with ⟨hc', he'⟩ | ⟨hc', hn', he'⟩ | ⟨hc', hn', he'⟩ <;>
      simp only [regOperand, State.reg, State.rehost] at hc hc' <;> try omega
    · exact .quiet he he' ⟨rfl, rfl⟩
    · exact .inl ⟨_, he, he'⟩
    · simp only [regOperand, State.reg, State.rehost] at hn hn'; omega
    · simp only [regOperand, State.reg, State.rehost] at hn hn'; omega
    · exact .loud he he' ⟨rfl, rfl⟩
  | add ra rb => exact arithWith_hostBlind rfl rfl
  | sub ra rb => exact arithWith_hostBlind rfl rfl
  | mul ra rb => exact arithWith_hostBlind rfl rfl
  | div ra rb =>
    rcases execDiv_cases ra rb s with ⟨hc, he⟩ | ⟨hc, he⟩ <;>
      rcases execDiv_cases ra rb (s.rehost h) with ⟨hc', he'⟩ | ⟨hc', he'⟩
    · exact .quiet he he' ⟨rfl, rfl⟩
    · exact absurd hc hc'
    · exact absurd hc' hc
    · exact arithWith_hostBlind he he'
  | mov ra rb => exact .quiet rfl (congrArg _ (writeReg_rehost _ _ _ s h)) (writeReg_keeps _ _ _ s)
  | set ra v => exact .quiet rfl (congrArg _ (writeReg_rehost _ _ _ s h)) (writeReg_keeps _ _ _ s)
  | tee ra rb => exact .quiet rfl rfl ⟨rfl, rfl⟩
  | tne ra rb => exact .quiet rfl rfl ⟨rfl, rfl⟩
  | tll ra rb => exact .quiet rfl rfl ⟨rfl, rfl⟩
  | tmm ra rb => exact .quiet rfl rfl ⟨rfl, rfl⟩
  | tel ra rb => exact .quiet rfl rfl ⟨rfl, rfl⟩
  | tem ra rb => exact .quiet rfl rfl ⟨rfl, rfl⟩
  | jmp target =>
    rcases execJmp_cases target s with ⟨hc, he⟩ | ⟨hc, hq, he⟩ | ⟨hc, hq, he⟩ <;>
      rcases execJmp_cases target (s.rehost h) with ⟨hc', he'⟩ | ⟨hc', hq', he'⟩ | ⟨hc', hq', he'⟩ <;>
      first
      | (exfalso; omega)
      | exact absurd hq hq'
      | exact absurd hq' hq
      | exact .quiet he he' ⟨rfl, rfl⟩
  | hlt => exact .quiet rfl rfl ⟨rfl, rfl⟩
  | dmp => exact .loud rfl rfl ⟨rfl, rfl⟩
  | drg r => exact .loud rfl rfl ⟨rfl, rfl⟩
  | dst => exact .loud rfl rfl ⟨rfl, rfl⟩
  | prt r =>
    rcases execPrt_cases r s with ⟨hc, he⟩ | ⟨hc, he⟩ <;>
      rcases execPrt_cases r (s.rehost h) with ⟨hc', he'⟩ | ⟨hc', he'⟩
    · exact .loud he he' ⟨rfl, rfl⟩
    · exact absurd hc hc'
    · exact absurd hc' hc
    · exact .quiet he he' ⟨rfl, rfl⟩

/-! ### The domains the handlers keep -/

/-- `Sp`, `Eq` and the stack are in their domains (spec/10_state.md R26, R28, R31). -/
abbrev InDomains (s : State) : Prop := SpOk s ∧ EqOk s ∧ StackOk s

theorem putReg_inDomains {s : State} {r : Reg} {v : Word} (h : InDomains s)
    (hd : inDomain s.cfg.stackCap r v = true) : InDomains (s.putReg r v) := by
  rw [inDomain_iff] at hd
  obtain ⟨h1, h2, h3⟩ := h
  refine ⟨?_, ?_, h3⟩
  · show -1 ≤ ((s.putReg r v).reg .sp).toInt ∧ ((s.putReg r v).reg .sp).toInt < (s.cfg.stackCap : Int)
    rw [reg_putReg]
    split
    · next hr => have := hd.1 hr.symm; omega
    · exact h1
  · show (s.putReg r v).reg .eq = 0#32 ∨ (s.putReg r v).reg .eq = 1#32
    rw [reg_putReg]
    split
    · next hr => exact hd.2 hr.symm
    · exact h2

/-- The write port keeps the domains. -/
theorem writeReg_inDomains {s : State} {r : Reg} {v : Word} {mode : WriteMode} (h : InDomains s) :
    InDomains (writeReg r v mode s) := by
  rcases writeReg_cases r v mode s with ⟨hd, he⟩ | ⟨_, he⟩ <;> rw [he]
  · refine putReg_inDomains h ?_
    cases r <;> cases mode <;> exact hd
  · exact h

/-- The result of a comparison is in the domain of `Eq`. -/
theorem compareWith_inDomains {rel : Int → Int → Bool} {ra rb : Reg} {s : State} (h : InDomains s) :
    InDomains (compareWith rel ra rb s) :=
  putReg_inDomains h (by unfold flagWord; split <;> rfl)

/-- Every handler keeps `Sp`, `Eq` and the stack in their domains. -/
theorem exec_inDomains {i : Instr} {s t : State} (hc : s.cfg.wf = true) (h : InDomains s)
    (he : exec i s = .next t) : InDomains t := by
  have hcap : (s.cfg.stackCap : Int) ≤ 2147483647 := by
    unfold Config.wf maxIndexCount at hc
    rw [Bool.and_eq_true, decide_eq_true_eq, decide_eq_true_eq] at hc
    omega
  have hr : regOperand .sp s = (s.reg .sp).toInt := rfl
  cases i with
  | psh v =>
    change pushValue v s = _ at he
    rcases pushValue_cases v s with ⟨_, e⟩ | ⟨_, _, e⟩ | ⟨h1, h2, e⟩ <;> rw [e] at he <;> cases he
    · exact h
    · have hlt : (regOperand .sp s + 1).toNat < s.cfg.stackCap := by omega
      have hstk : InDomains { s with stk := Stack.write s.stk (regOperand .sp s + 1).toNat v } :=
        ⟨h.1, h.2.1, Stack.write_wf _ _ _ h.2.2.1, Stack.write_below _ hlt _ h.2.2.2⟩
      refine putReg_inDomains (putReg_inDomains hstk ?_) rfl
      rw [inDomain_iff, toInt_wrap32 (by omega) (by omega)]
      exact ⟨fun _ => ⟨by omega, by show _ ≤ (s.cfg.stackCap : Int) - 1; omega⟩, fun hh => by cases hh⟩
  | pop =>
    change execPop s = _ at he
    rcases execPop_cases s with ⟨_, e⟩ | ⟨_, _, e⟩ | ⟨h1, h2, e⟩ <;> rw [e] at he <;> cases he
    · exact h
    · refine putReg_inDomains (putReg_inDomains h ?_) rfl
      rw [inDomain_iff, toInt_wrap32 (by omega) (by omega)]
      exact ⟨fun _ => ⟨by omega, by omega⟩, fun hh => by cases hh⟩
  | pek =>
    change execPek s = _ at he
    rcases execPek_cases s with ⟨_, e⟩ | ⟨_, _, e⟩ | ⟨_, _, e⟩ <;> rw [e] at he <;> cases he
    · exact h
    · exact putReg_inDomains h rfl
  | add ra rb => cases he; exact writeReg_inDomains h
  | sub ra rb => cases he; exact writeReg_inDomains h
  | mul ra rb => cases he; exact writeReg_inDomains h
  | div ra rb =>
    change execDiv ra rb s = _ at he
    rcases execDiv_cases ra rb s with ⟨_, e⟩ | ⟨_, e⟩ <;> rw [e] at he <;> cases he
    · exact h
    · exact writeReg_inDomains h
  | mov ra rb => cases he; exact writeReg_inDomains h
  | set ra v => cases he; exact writeReg_inDomains h
  | tee ra rb => cases he; exact compareWith_inDomains h
  | tne ra rb => cases he; exact compareWith_inDomains h
  | tll ra rb => cases he; exact compareWith_inDomains h
  | tmm ra rb => cases he; exact compareWith_inDomains h
  | tel ra rb => cases he; exact compareWith_inDomains h
  | tem ra rb => cases he; exact compareWith_inDomains h
  | jmp target =>
    change execJmp target s = _ at he
    rcases execJmp_cases target s with ⟨_, e⟩ | ⟨_, _, e⟩ | ⟨_, _, e⟩ <;> rw [e] at he <;> cases he
    · exact h
    · exact putReg_inDomains h rfl
    · exact h
  | hlt => cases he; exact h
  | dmp => cases he; exact h
  | drg r => cases he; exact h
  | dst => cases he; exact h
  | prt r =>
    change execPrt r s = _ at he
    rcases execPrt_cases r s with ⟨_, e⟩ | ⟨_, e⟩ <;> rw [e] at he <;> cases he <;> exact h

/-- Where `Sp` is in its domain every handler answers a next state. -/
theorem exec_answers (i : Instr) {s : State} (h : SpOk s) : ∃ t, exec i s = .next t := by
  have hr : regOperand .sp s = (s.reg .sp).toInt := rfl
  cases i with
  | psh v =>
    rcases pushValue_cases v s with ⟨_, e⟩ | ⟨_, _, _⟩ | ⟨_, _, e⟩
    · exact ⟨_, e⟩
    · omega
    · exact ⟨_, e⟩
  | pop =>
    rcases execPop_cases s with ⟨_, e⟩ | ⟨_, _, _⟩ | ⟨_, _, e⟩
    · exact ⟨_, e⟩
    · omega
    · exact ⟨_, e⟩
  | pek =>
    rcases execPek_cases s with ⟨_, e⟩ | ⟨_, _, _⟩ | ⟨_, _, e⟩
    · exact ⟨_, e⟩
    · omega
    · exact ⟨_, e⟩
  | div ra rb => rcases execDiv_cases ra rb s with ⟨_, e⟩ | ⟨_, e⟩ <;> exact ⟨_, e⟩
  | jmp target => rcases execJmp_cases target s with ⟨_, e⟩ | ⟨_, _, e⟩ | ⟨_, _, e⟩ <;> exact ⟨_, e⟩
  | prt r => rcases execPrt_cases r s with ⟨_, e⟩ | ⟨_, e⟩ <;> exact ⟨_, e⟩
  | _ => exact ⟨_, rfl⟩

end Sys2Proof.Machine
end

