-- ==== Sys2Proof/Laws/Cycle.lean ====
section
/-! SUPPORT. What the dispatcher's parts do, and everything a step can do (spec/40_engine_cycle.md R80). -/

namespace Sys2Proof.Machine

/-! ### The parts of the cycle -/

/-- The trace event of a phase under a value of `cfg_details`. -/
def traceOf (details : Bool) (phase : Phase) (k : Word) (w : InstrWord) (x : Regs) : List Event :=
  if details = true then [.trace phase k w x.toList] else []

theorem traceEvent_eq (phase : Phase) (k : Word) (w : InstrWord) (s : State) :
    traceEvent phase k w s = { s with out := s.out ++ traceOf s.cfgDetails phase k w s.regs } := by
  obtain ⟨c, p, d, i, x, m, r, l, o, oc, ot⟩ := s
  cases d <;> simp [traceEvent, traceOf, emit]

/-- The increment is an addition of 1 that wraps. -/
theorem increment_eq (s : State) : increment s = s.putReg .ip (s.reg .ip + 1#32) := by
  unfold increment
  congr 1
  apply BitVec.eq_of_toInt_eq
  simp [wrap32, BitVec.toInt_ofInt, BitVec.toInt_add]

/-- `retire` leaves a faulted state, and otherwise traces and increments. -/
theorem retire_cases (k : Word) (w : InstrWord) (t : State) :
    ((∃ f j, t.run = .faulted f j) ∧ retire k w t = t) ∨
    ((∀ f j, t.run ≠ .faulted f j) ∧
      retire k w t = { t with regs := t.regs.put .ip (t.reg .ip + 1#32),
                              out := t.out ++ traceOf t.cfgDetails .after k w t.regs }) := by
  unfold retire
  split
  · next f j hr => exact .inl ⟨⟨f, j, hr⟩, rfl⟩
  · next hr => exact .inr ⟨by simp [hr], by rw [increment_eq, traceEvent_eq]; rfl⟩
  · next hr => exact .inr ⟨by simp [hr], by rw [increment_eq, traceEvent_eq]; rfl⟩

/-- The events after a handler: none after a fault, else the second trace event. -/
def afterOf (details : Bool) (k : Word) (w : InstrWord) (t : State) : List Event :=
  match t.run with
  | .faulted _ _ => []
  | .running => traceOf details .after k w t.regs
  | .halted => traceOf details .after k w t.regs

theorem afterOf_faulted {t : State} {f : FaultKind} {j : Word} (h : t.run = .faulted f j) (details : Bool) (k : Word)
    (w : InstrWord) : afterOf details k w t = [] := by unfold afterOf; rw [h]

theorem afterOf_not_faulted {t : State} (h : ∀ f j, t.run ≠ .faulted f j) (details : Bool) (k : Word)
    (w : InstrWord) : afterOf details k w t = traceOf details .after k w t.regs := by
  unfold afterOf
  split
  · next f j hr => exact absurd hr (h f j)
  · rfl
  · rfl

/-- `retire` adds the events of `afterOf`. -/
theorem retire_out (k : Word) (w : InstrWord) (t : State) :
    (retire k w t).out = t.out ++ afterOf t.cfgDetails k w t := by
  rcases retire_cases k w t with ⟨⟨f, j, hf⟩, hr⟩ | ⟨hf, hr⟩
  · rw [hr, afterOf_faulted hf, List.append_nil]
  · rw [hr, afterOf_not_faulted hf]

/-- `retire` does the same to the rest of the state under every `rehost`. -/
theorem retire_rehost (k : Word) (w : InstrWord) (t h : State) (o : List Event) :
    retire k w (t.rehost { h with out := o }) =
      (retire k w t).rehost { h with out := o ++ afterOf h.cfgDetails k w t } := by
  rcases retire_cases k w t with ⟨⟨f, j, hf⟩, hr⟩ | ⟨hf, hr⟩
  · rcases retire_cases k w (t.rehost { h with out := o }) with ⟨_, hr'⟩ | ⟨hf', _⟩
    · rw [hr, hr', afterOf_faulted hf, List.append_nil]
    · exact absurd hf (hf' f j)
  · rcases retire_cases k w (t.rehost { h with out := o }) with ⟨⟨f, j, hf'⟩, _⟩ | ⟨_, hr'⟩
    · exact absurd hf' (hf f j)
    · rw [hr, hr', afterOf_not_faulted hf]; rfl

/-- A non-negative word is the same signed and unsigned. -/
theorem toNat_of_toInt_nonneg {v : Word} (h : 0 ≤ v.toInt) : v.toInt.toNat = v.toNat := by
  rw [BitVec.toInt_eq_toNat_cond] at h ⊢
  have := v.isLt
  split at h <;> split <;> omega

/-- The fetch answers exactly inside the program. -/
theorem fetch_eq_some {s : State} {w : InstrWord} :
    fetch s = some w ↔ 0 ≤ (s.reg .ip).toInt ∧ s.prog[(s.reg .ip).toNat]? = some w := by
  unfold fetch
  by_cases h0 : (s.reg .ip).toInt < 0
  · simp [h0]
  · have h0' : 0 ≤ (s.reg .ip).toInt := by omega
    rw [if_neg h0, toNat_of_toInt_nonneg h0']
    by_cases hN : (s.reg .ip).toInt ≥ (s.prog.length : Int)
    · have hlen : s.prog.length ≤ (s.reg .ip).toNat := by
        have := toNat_of_toInt_nonneg h0'; omega
      simp [hN, List.getElem?_eq_none hlen]
    · simp [hN, h0']

/-- The fetch fails exactly outside the program. -/
theorem fetch_eq_none {s : State} :
    fetch s = none ↔ (s.reg .ip).toInt < 0 ∨ (s.prog.length : Int) ≤ (s.reg .ip).toInt := by
  unfold fetch
  by_cases h0 : (s.reg .ip).toInt < 0
  · simp [h0]
  · rw [if_neg h0]
    by_cases hN : (s.reg .ip).toInt ≥ (s.prog.length : Int)
    · simp [hN]
    · simp [hN, h0]; omega

/-- The fetch looks at `Ip` and the program alone. -/
theorem fetch_congr {s t : State} (hr : t.regs = s.regs) (hp : t.prog = s.prog) : fetch t = fetch s := by
  unfold fetch State.reg; rw [hr, hp]

@[simp] theorem fetch_announce (s : State) : fetch (announce s) = fetch s := fetch_congr rfl rfl
@[simp] theorem announce_cfg (s : State) : (announce s).cfg = s.cfg := rfl
@[simp] theorem announce_prog (s : State) : (announce s).prog = s.prog := rfl
@[simp] theorem announce_cfgDetails (s : State) : (announce s).cfgDetails = s.cfgDetails := rfl
@[simp] theorem announce_cfgInstructions (s : State) : (announce s).cfgInstructions = s.cfgInstructions := rfl
@[simp] theorem announce_regs (s : State) : (announce s).regs = s.regs := rfl
@[simp] theorem announce_stk (s : State) : (announce s).stk = s.stk := rfl
@[simp] theorem announce_run (s : State) : (announce s).run = s.run := rfl
@[simp] theorem announce_listed (s : State) : (announce s).listed = true := rfl
@[simp] theorem announce_out (s : State) : (announce s).out = s.out ++ listingEvents s := rfl
@[simp] theorem announce_hold (s : State) : (announce s).hold = none := rfl
@[simp] theorem announce_reg (s : State) (r : Reg) : (announce s).reg r = s.reg r := rfl

/-- In a block that holds in no instruction the listing is due exactly in the first step after reset, with
`cfg_instructions` set. -/
theorem listingEvents_of_no_hold {s : State} (h : s.hold = none) :
    listingEvents s = if s.listed = false ∧ s.cfgInstructions = true then [.listing s.prog] else [] := by
  unfold listingEvents listingPending
  rw [h]
  cases s.listed <;> cases s.cfgInstructions <;> rfl

/-- Against a host that accepts every event the listing is never blocked. -/
theorem listingBlocked_of_accepts {s : State} (h : s.outCredit = none) : listingBlocked s = false := by
  unfold listingBlocked; rw [h]; simp

/-- A host that accepts no event blocks exactly a pending listing. -/
theorem listingBlocked_iff {s : State} :
    listingBlocked s = true ↔ listingPending s = true ∧ s.outCredit = some 0 := by
  simp [listingBlocked]

/-! ### A whole step -/

/-- Everything a transaction can be: a fetch fault, a decode fault, or the decoded instruction. -/
theorem transact_cases (s : State) :
    (fetch s = none ∧ transact s = .next (takeFault .programCounterOutOfRange s)) ∨
    (∃ w e, fetch s = some w ∧ decode s.cfg w = .error e ∧
      transact s = .next (takeFault .illegalInstruction s)) ∨
    (∃ w i, fetch s = some w ∧ decode s.cfg w = .ok i ∧ transact s = runDecoded w i s) := by
  unfold transact
  cases hf : fetch s with
  | none => exact .inl ⟨rfl, rfl⟩
  | some w =>
    cases hd : decode s.cfg w with
    | error e => exact .inr (.inl ⟨w, e, rfl, hd, by simp only [hd]⟩)
    | ok i => exact .inr (.inr ⟨w, i, rfl, hd, by simp only [hd]⟩)

/-- The state a handler is given: the first trace event is out. -/
def handlerInput (w : InstrWord) (s : State) : State :=
  { s with out := s.out ++ traceOf s.cfgDetails .before (s.reg .ip) w s.regs }

/-- A transaction that passes decode is its handler, retired. -/
theorem transact_decoded {s : State} {w : InstrWord} {i : Instr} (hf : fetch s = some w)
    (hd : decode s.cfg w = .ok i) :
    (∃ u, exec i (handlerInput w s) = .next u ∧ transact s = .next (retire (s.reg .ip) w u)) ∨
    (∃ r, exec i (handlerInput w s) = .fault r ∧ transact s = .fault r) := by
  have ht : transact s = runDecoded w i s := by
    rcases transact_cases s with ⟨h, _⟩ | ⟨w', e, h, h', _⟩ | ⟨w', i', h, h', h2⟩
    · rw [hf] at h; cases h
    · rw [hf] at h; cases h; rw [hd] at h'; cases h'
    · rw [hf] at h; cases h; rw [hd] at h'; cases h'; exact h2
  rw [ht]
  unfold runDecoded
  rw [traceEvent_eq]
  rcases exec_hostBlind i (handlerInput w s) s with ⟨r, h, _⟩ | ⟨u, _, h, _⟩
  · refine .inr ⟨r, h, ?_⟩
    rw [handlerInput] at h
    rw [h]
  · refine .inl ⟨u, h, ?_⟩
    rw [handlerInput] at h
    rw [h]

/-- The inputs of the run, `listed` and the output port are as before. -/
def SameInputs (s t : State) : Prop :=
  t.cfg = s.cfg ∧ t.prog = s.prog ∧ t.cfgDetails = s.cfgDetails ∧ t.cfgInstructions = s.cfgInstructions ∧
    t.listed = s.listed ∧ t.outCredit = s.outCredit ∧ t.hold = s.hold

/-- A decoded instruction adds events, keeps the inputs, and does the same to the rest of the state under every
`rehost`. -/
theorem runDecoded_hostBlind (w : InstrWord) (i : Instr) (s h : State) :
    (∃ r, runDecoded w i s = .fault r ∧ runDecoded w i (s.rehost h) = .fault r) ∨
    (∃ (t : State) (es es' : List Event), runDecoded w i s = .next t ∧ t.out = s.out ++ es ∧
      runDecoded w i (s.rehost h) = .next (t.rehost { h with out := h.out ++ es' }) ∧
      (h.cfgDetails = s.cfgDetails → es' = es) ∧ SameInputs s t) := by
  unfold runDecoded
  rw [traceEvent_eq, traceEvent_eq]
  have hb := exec_hostBlind i { s with out := s.out ++ traceOf s.cfgDetails .before (s.reg .ip) w s.regs }
    { h with out := h.out ++ traceOf h.cfgDetails .before (s.reg .ip) w s.regs }
  have hre : ∀ k : Word, ({ s with out := s.out ++ traceOf s.cfgDetails .before k w s.regs } : State).rehost
      { h with out := h.out ++ traceOf h.cfgDetails .before k w s.regs } =
      { s.rehost h with out := h.out ++ traceOf h.cfgDetails .before k w s.regs } := fun _ => rfl
  rw [HostBlind, hre] at hb
  rcases hb with ⟨r, h1, h2⟩ | ⟨t, es, h1, ho, h2, hc, hp, hd, hi, hl, hoc, hot⟩
  · left
    refine ⟨r, by rw [h1], ?_⟩
    show (match exec i { s.rehost h with out := h.out ++ traceOf h.cfgDetails .before (s.reg .ip) w s.regs } with
      | .next t => _ | .fault r => _ | .refused r => _) = _
    rw [h2]
  · right
    refine ⟨retire (s.reg .ip) w t,
      traceOf s.cfgDetails .before (s.reg .ip) w s.regs ++ es ++ afterOf s.cfgDetails (s.reg .ip) w t,
      traceOf h.cfgDetails .before (s.reg .ip) w s.regs ++ es ++ afterOf h.cfgDetails (s.reg .ip) w t,
      by rw [h1], ?_, ?_, ?_, ?_⟩
    · rw [retire_out, ho, hd]; simp
    · show (match exec i { s.rehost h with out := h.out ++ traceOf h.cfgDetails .before (s.reg .ip) w s.regs } with
        | .next t => _ | .fault r => _ | .refused r => _) = _
      rw [h2]
      show Host.Outcome.next (retire (s.reg .ip) w _) = _
      rw [retire_rehost]
      simp [List.append_assoc]
    · intro he; rw [he]
    · rcases retire_cases (s.reg .ip) w t with ⟨_, hr⟩ | ⟨_, hr⟩ <;> rw [hr] <;>
        exact ⟨hc, hp, hd, hi, hl, hoc, hot⟩

/-- The same for a whole transaction. -/
theorem transact_hostBlind (s h : State) (hp : h.prog = s.prog) :
    (∃ r, transact s = .fault r ∧ transact (s.rehost h) = .fault r) ∨
    (∃ (t : State) (es es' : List Event), transact s = .next t ∧ t.out = s.out ++ es ∧
      transact (s.rehost h) = .next (t.rehost { h with out := h.out ++ es' }) ∧
      (h.cfgDetails = s.cfgDetails → es' = es) ∧ SameInputs s t) := by
  have hf : fetch (s.rehost h) = fetch s := fetch_congr rfl hp
  rcases transact_cases s with ⟨h1, h2⟩ | ⟨w, e, h1, hd, h2⟩ | ⟨w, i, h1, hd, h2⟩ <;>
    rcases transact_cases (s.rehost h) with ⟨h1', h2'⟩ | ⟨w', e', h1', hd', h2'⟩ | ⟨w', i', h1', hd', h2'⟩ <;>
    rw [hf] at h1' <;> rw [h1] at h1' <;> cases h1'
  · exact .inr ⟨_, [], [], h2, (List.append_nil _).symm, by rw [h2', List.append_nil]; rfl, fun _ => rfl,
      rfl, rfl, rfl, rfl, rfl, rfl, rfl⟩
  · exact .inr ⟨_, [], [], h2, (List.append_nil _).symm, by rw [h2', List.append_nil]; rfl, fun _ => rfl,
      rfl, rfl, rfl, rfl, rfl, rfl, rfl⟩
  · exact absurd (hd.symm.trans hd') (by simp)
  · exact absurd (hd.symm.trans hd') (by simp)
  · cases Except.ok.inj (hd'.symm.trans hd)
    rw [h2, h2']
    exact runDecoded_hostBlind w i s h

/-- A transaction adds events and keeps the inputs. -/
theorem transact_next {s t : State} (h : transact s = .next t) :
    (∃ es, t.out = s.out ++ es) ∧ SameInputs s t := by
  rcases transact_hostBlind s s rfl with ⟨r, h1, _⟩ | ⟨t', es, es', h1, ho, _, _, hs⟩
  · rw [h] at h1; cases h1
  · rw [h] at h1; cases h1; exact ⟨⟨es, ho⟩, hs⟩

/-- A transaction answers the same but for the channel, whatever the channel holds and the host accepts. -/
theorem transact_port {s t : State} {es : List Event} (h : transact s = .next t) (ho : t.out = s.out ++ es)
    (o : List Event) (c : Option Nat) (k : Option Hold) :
    transact { s with out := o, outCredit := c, hold := k } =
      .next { t with out := o ++ es, outCredit := c, hold := k } := by
  rcases transact_hostBlind s { s with out := o, outCredit := c, hold := k } rfl with
    ⟨r, h1, _⟩ | ⟨u, es', es'', h1, ho', h2, heq, ⟨_, a2, a3, a4, a5, _, _⟩⟩
  · rw [h] at h1; cases h1
  · rw [h] at h1; cases h1
    have he : es' = es := (List.append_cancel_left (ho.symm.trans ho')).symm
    subst he
    cases heq rfl
    refine h2.trans ?_
    simp only [State.rehost]
    rw [← a2, ← a3, ← a4, ← a5]

/-! ### The output port -/

/-- A host that accepts every event: the instruction completes. -/
theorem deliver_all {s : State} (hc : s.outCredit = none) (p : List Event) (x : Regs) (m : Stack) (r : RunState) :
    deliver p x m r s = { s with regs := x, stk := m, run := r, out := s.out ++ p, hold := none } := by
  unfold deliver; rw [hc]

/-- A host that accepts `n` more events, at most `n` being pending: the instruction completes. -/
theorem deliver_fits {s : State} {n : Nat} {p : List Event} (hc : s.outCredit = some n) (hn : p.length ≤ n) (x : Regs)
    (m : Stack) (r : RunState) :
    deliver p x m r s =
      { s with regs := x, stk := m, run := r, out := s.out ++ p, outCredit := some (n - p.length), hold := none } := by
  unfold deliver; rw [hc]; simp only [hn, if_true]

/-- A host that accepts `n` more events, more than `n` being pending: the block holds. -/
theorem deliver_holds {s : State} {n : Nat} {p : List Event} (hc : s.outCredit = some n) (hn : n < p.length) (x : Regs)
    (m : Stack) (r : RunState) :
    deliver p x m r s =
      { s with out := s.out ++ p.take n, outCredit := some 0, hold := some (.instruction (p.drop n) x m r) } := by
  unfold deliver; rw [hc]; simp only [Nat.not_le.mpr hn, if_false]

/-- Everything an offer can do: the instruction completes, with all its events on the channel, or the block holds, with
some of them there and the rest pending. -/
theorem deliver_cases (p : List Event) (x : Regs) (m : Stack) (r : RunState) (s : State) :
    (∃ c, deliver p x m r s =
      { s with regs := x, stk := m, run := r, out := s.out ++ p, outCredit := c, hold := none }) ∨
    (∃ n, n < p.length ∧ s.outCredit = some n ∧ deliver p x m r s =
      { s with out := s.out ++ p.take n, outCredit := some 0, hold := some (.instruction (p.drop n) x m r) }) := by
  rcases Option.eq_none_or_eq_some s.outCredit with hc | ⟨n, hc⟩
  · refine .inl ⟨none, ?_⟩
    rw [deliver_all hc, ← hc]
  · by_cases hn : p.length ≤ n
    · exact .inl ⟨_, deliver_fits hc hn x m r⟩
    · exact .inr ⟨n, Nat.not_le.mp hn, hc, deliver_holds hc (Nat.not_le.mp hn) x m r⟩

/-- Against a host that accepts every event an instruction settles as it completes. -/
theorem settle_of_accepts {s t : State} (hc : s.outCredit = none) (hh : s.hold = none) (ht : transact s = .next t) :
    settle s t = t := by
  obtain ⟨⟨es, he⟩, a1, a2, a3, a4, a5, a6, a7⟩ := transact_next ht
  unfold settle
  have a8 : t.hold = none := a7.trans hh
  rw [deliver_all hc, he, List.drop_left, ← he, ← a1, ← a2, ← a3, ← a4, ← a5, ← a6, ← a8]

/-- Everything the instruction at `Ip` can do: fault in the model, or offer its completion. -/
theorem runInstr_cases (s : State) :
    (∃ r, transact s = .fault r ∧ runInstr s = .fault r) ∨
    (∃ t, transact s = .next t ∧ runInstr s = .next (settle s t)) := by
  unfold runInstr
  rcases transact_hostBlind s s rfl with ⟨r, h1, _⟩ | ⟨t, es, es', h1, _⟩
  · exact .inl ⟨r, h1, by rw [h1]⟩
  · exact .inr ⟨t, h1, by rw [h1]⟩

/-- What the invariant says of a block that holds in an instruction. -/
theorem holdOk_instruction {s : State} {p : List Event} {x : Regs} {m : Stack} {r : RunState}
    (h : s.hold = some (.instruction p x m r)) :
    holdOk s = true ↔ s.run = .running ∧ s.listed = true ∧ p ≠ [] ∧
      InDomains { s with regs := x, stk := m, run := r } ∧
      faultIndexOk { s with regs := x, stk := m, run := r } = true := by
  unfold holdOk; rw [h]; simp only [decide_eq_true_eq, InDomains, and_assoc]

/-- A block that holds in no instruction begins a step, or goes on from the listing. -/
theorem cycle_eq_beginStep {s : State} (hr : s.run = .running) (hh : ¬ HoldsInstruction s) : cycle s = beginStep s := by
  unfold cycle
  rw [hr]
  rcases h : s.hold with _ | (_ | ⟨p, x, m, r⟩)
  · rfl
  · rfl
  · exact absurd ⟨p, x, m, r, h⟩ hh

/-- Everything a step can do: a stopped block stays; a held instruction offers its pending events; a listing the host
does not accept holds the block; otherwise the instruction at `Ip` runs after the start of the step. -/
theorem cycle_cases (s : State) :
    (s.run ≠ .running ∧ cycle s = .next s) ∨
    (s.run = .running ∧ ∃ p x m r, s.hold = some (.instruction p x m r) ∧ cycle s = .next (deliver p x m r s)) ∨
    (s.run = .running ∧ ¬ HoldsInstruction s ∧ listingBlocked s = true ∧
      cycle s = .next { s with listed := true, hold := some .listing }) ∨
    (s.run = .running ∧ ¬ HoldsInstruction s ∧ listingBlocked s = false ∧ cycle s = runInstr (announce s)) := by
  by_cases hr : s.run = .running
  · by_cases hh : HoldsInstruction s
    · obtain ⟨p, x, m, r, h⟩ := hh
      refine .inr (.inl ⟨hr, p, x, m, r, h, ?_⟩)
      unfold cycle; rw [hr, h]
    · have he := cycle_eq_beginStep hr hh
      unfold beginStep at he
      cases hb : listingBlocked s
      · exact .inr (.inr (.inr ⟨hr, hh, rfl, by rw [he, hb]; rfl⟩))
      · exact .inr (.inr (.inl ⟨hr, hh, rfl, by rw [he, hb]; rfl⟩))
  · refine .inl ⟨hr, ?_⟩
    unfold cycle
    cases h : s.run with
    | running => exact absurd h hr
    | halted => rfl
    | faulted f k => rfl

/-- A running block under the host's duty: a step is the instruction at `Ip` after the start of the step. -/
theorem cycle_of_accepts {s : State} (hr : s.run = .running) (hc : s.outCredit = none) (hh : s.hold = none) :
    cycle s = transact (announce s) := by
  have hno : ¬ HoldsInstruction s := by rintro ⟨p, x, m, r, h⟩; rw [hh] at h; cases h
  have hc' : (announce s).outCredit = none := by show s.outCredit.map _ = none; rw [hc]; rfl
  have hb := listingBlocked_of_accepts hc
  rw [cycle_eq_beginStep hr hno, beginStep, hb]
  show runInstr (announce s) = _
  rcases runInstr_cases (announce s) with ⟨r, h1, h2⟩ | ⟨t, h1, h2⟩
  · rw [h1, h2]
  · rw [h1, h2, settle_of_accepts hc' rfl h1]

/-- The word put at an index is there. -/
theorem getElem?_putWord (w : InstrWord) : ∀ (k : Nat) (p : List InstrWord), (putWord w k p)[k]? = some w
  | 0, [] => rfl
  | 0, _ :: _ => rfl
  | k + 1, [] => by simpa [putWord] using getElem?_putWord w k []
  | k + 1, _ :: rest => by simpa [putWord] using getElem?_putWord w k rest

end Sys2Proof.Machine
end

