-- ==== Sys2Proof/Laws/Decode.lean ====
section
/-! SUPPORT. The fields of an instruction word (spec/30_encoding.md R61): reading back what the encoder wrote, and a
word of reserved field 0 as the encoding of its own fields. -/

namespace Sys2Proof

/-- Bit `j` of an encoded word, field by field. -/
theorem getLsbD_encodeFields (op : BitVec 8) (ra rb : BitVec 4) (imm : Word) (j : Nat) (hj : j < 64) :
    (encodeFields op ra rb imm).getLsbD j =
      if 56 ≤ j then op.getLsbD (j - 56)
      else if 52 ≤ j then ra.getLsbD (j - 52)
      else if 48 ≤ j then rb.getLsbD (j - 48)
      else imm.getLsbD j := by
  unfold encodeFields
  simp only [BitVec.getLsbD_or, BitVec.getLsbD_shiftLeft, BitVec.getLsbD_setWidth]
  split
  · have h1 : ra.getLsbD (j - 52) = false := BitVec.getLsbD_of_ge _ _ (by omega)
    have h2 : rb.getLsbD (j - 48) = false := BitVec.getLsbD_of_ge _ _ (by omega)
    have h3 : imm.getLsbD j = false := BitVec.getLsbD_of_ge _ _ (by omega)
    have h4 : decide (j < 56) = false := by simp; omega
    have h5 : decide (j - 56 < 64) = true := by simp; omega
    simp [h1, h2, h3, h4, h5, hj]
  · have h4 : decide (j < 56) = true := by simp; omega
    split
    · have h2 : rb.getLsbD (j - 48) = false := BitVec.getLsbD_of_ge _ _ (by omega)
      have h3 : imm.getLsbD j = false := BitVec.getLsbD_of_ge _ _ (by omega)
      have h5 : decide (j < 52) = false := by simp; omega
      have h6 : decide (j - 52 < 64) = true := by simp; omega
      simp [h2, h3, h4, h5, h6, hj]
    · have h5 : decide (j < 52) = true := by simp; omega
      split
      · have h3 : imm.getLsbD j = false := BitVec.getLsbD_of_ge _ _ (by omega)
        have h6 : decide (j < 48) = false := by simp; omega
        have h7 : decide (j - 48 < 64) = true := by simp; omega
        simp [h3, h4, h5, h6, h7, hj]
      · have h6 : decide (j < 48) = true := by simp; omega
        simp [h4, h5, h6, hj]

/-- A field of a word, bit by bit. -/
theorem extract_eq_of_bits {n k : Nat} {w : InstrWord} {v : BitVec k}
    (h : ∀ i, i < k → w.getLsbD (n + i) = v.getLsbD i) : w.extractLsb' n k = v := by
  apply BitVec.eq_of_getLsbD_eq
  intro i hi
  rw [BitVec.getLsbD_extractLsb', h i hi]
  simp [hi]

@[simp] theorem opField_encodeFields (op : BitVec 8) (ra rb : BitVec 4) (imm : Word) :
    opField (encodeFields op ra rb imm) = op := by
  refine extract_eq_of_bits fun i hi => ?_
  rw [getLsbD_encodeFields _ _ _ _ _ (by omega), if_pos (by omega), show 56 + i - 56 = i by omega]

@[simp] theorem raField_encodeFields (op : BitVec 8) (ra rb : BitVec 4) (imm : Word) :
    raField (encodeFields op ra rb imm) = ra := by
  refine extract_eq_of_bits fun i hi => ?_
  rw [getLsbD_encodeFields _ _ _ _ _ (by omega), if_neg (by omega), if_pos (by omega), show 52 + i - 52 = i by omega]

@[simp] theorem rbField_encodeFields (op : BitVec 8) (ra rb : BitVec 4) (imm : Word) :
    rbField (encodeFields op ra rb imm) = rb := by
  refine extract_eq_of_bits fun i hi => ?_
  rw [getLsbD_encodeFields _ _ _ _ _ (by omega), if_neg (by omega), if_neg (by omega), if_pos (by omega),
    show 48 + i - 48 = i by omega]

@[simp] theorem rsvField_encodeFields (op : BitVec 8) (ra rb : BitVec 4) (imm : Word) :
    rsvField (encodeFields op ra rb imm) = 0#16 := by
  refine extract_eq_of_bits fun i hi => ?_
  rw [getLsbD_encodeFields _ _ _ _ _ (by omega), if_neg (by omega), if_neg (by omega), if_neg (by omega),
    BitVec.getLsbD_of_ge _ _ (by omega)]
  simp

@[simp] theorem immField_encodeFields (op : BitVec 8) (ra rb : BitVec 4) (imm : Word) :
    immField (encodeFields op ra rb imm) = imm := by
  refine extract_eq_of_bits fun i hi => ?_
  rw [getLsbD_encodeFields _ _ _ _ _ (by omega), if_neg (by omega), if_neg (by omega), if_neg (by omega),
    show 0 + i = i by omega]

/-- A word whose reserved field is 0 is the encoding of its fields. -/
theorem encodeFields_fields (w : InstrWord) (h : rsvField w = 0#16) :
    encodeFields (opField w) (raField w) (rbField w) (immField w) = w := by
  apply BitVec.eq_of_getLsbD_eq
  intro j hj
  rw [getLsbD_encodeFields _ _ _ _ _ hj]
  simp only [opField, raField, rbField, immField, BitVec.getLsbD_extractLsb']
  split
  · rw [show 56 + (j - 56) = j by omega]; simp; omega
  · split
    · rw [show 52 + (j - 52) = j by omega]; simp; omega
    · split
      · rw [show 48 + (j - 48) = j by omega]; simp; omega
      · by_cases hlo : j < 32
        · simp [hlo]
        · have hb : (rsvField w).getLsbD (j - 32) = false := by rw [h]; simp
          rw [rsvField, BitVec.getLsbD_extractLsb', show 32 + (j - 32) = j by omega] at hb
          have h16 : decide (j - 32 < 16) = true := by simp; omega
          rw [h16, Bool.true_and] at hb
          simp [hlo, hb]

/-! ### Registers -/

/-- The register decoder reads back every register's code. -/
@[simp] theorem regOfField_field (r : Reg) : regOfField r.field = .ok r := by cases r <;> rfl

/-- A code the register decoder accepts is the code of the register it names. -/
theorem field_of_regOfField {v : BitVec 4} {r : Reg} (h : regOfField v = .ok r) : r.field = v := by
  unfold regOfField at h
  split at h <;> first
    | (next hv => cases h; exact BitVec.eq_of_toNat_eq (by rw [hv]; rfl))
    | cases h

/-- The register decoder accepts exactly the codes 0 to 9 (R64). -/
theorem regOfField_ok_iff (v : BitVec 4) : (∃ r, regOfField v = .ok r) ↔ v.toNat ≤ 9 := by
  constructor
  · rintro ⟨r, h⟩
    rw [← field_of_regOfField h]
    cases r <;> decide
  · intro h
    have key : ∀ n : Fin 10, ∃ r, regOfField (BitVec.ofNat 4 n) = .ok r := by
      intro n; fin_cases n
      exacts [⟨.a, rfl⟩, ⟨.b, rfl⟩, ⟨.c, rfl⟩, ⟨.d, rfl⟩, ⟨.e, rfl⟩, ⟨.f, rfl⟩, ⟨.ip, rfl⟩, ⟨.sp, rfl⟩, ⟨.st, rfl⟩,
        ⟨.eq, rfl⟩]
    have := key ⟨v.toNat, by omega⟩
    simpa using this

/-! ### Shapes -/

/-- Everything shape `N` accepts. -/
theorem operandsN_ok {w : InstrWord} {i j : Instr} :
    operandsN w i = .ok j ↔
      rsvField w = 0#16 ∧ immField w = 0#32 ∧ raField w = 0#4 ∧ rbField w = 0#4 ∧ j = i := by
  unfold operandsN
  split
  · next h => simp [h]
  · next h =>
    split
    · next h' => simp [h']
    · next h' =>
      split
      · next h'' => simp [h'']
      · next h'' =>
        split
        · next h3 => simp [h3]
        · next h3 => simp_all [eq_comm]

/-- Everything shape `I` accepts. -/
theorem operandsI_ok {w : InstrWord} {mk : Word → Instr} {j : Instr} :
    operandsI w mk = .ok j ↔
      rsvField w = 0#16 ∧ raField w = 0#4 ∧ rbField w = 0#4 ∧ j = mk (immField w) := by
  unfold operandsI
  split
  · next h => simp [h]
  · next h =>
    split
    · next h' => simp [h']
    · next h' =>
      split
      · next h'' => simp [h'']
      · next h'' => simp_all [eq_comm]

/-- Everything shape `R` accepts. -/
theorem operandsR_ok {w : InstrWord} {mk : Reg → Instr} {j : Instr} :
    operandsR w mk = .ok j ↔
      rsvField w = 0#16 ∧ immField w = 0#32 ∧ rbField w = 0#4 ∧
        ∃ ra, regOfField (raField w) = .ok ra ∧ j = mk ra := by
  unfold operandsR
  split
  · next h => simp [h]
  · next h =>
    split
    · next h' => simp [h']
    · next h' =>
      split
      · next h'' => simp [h'']
      · next h'' =>
        cases hr : regOfField (raField w) <;> simp_all [eq_comm (a := j)]

/-- Everything shape `RR` accepts. -/
theorem operandsRR_ok {w : InstrWord} {mk : Reg → Reg → Instr} {j : Instr} :
    operandsRR w mk = .ok j ↔
      rsvField w = 0#16 ∧ immField w = 0#32 ∧
        ∃ ra rb, regOfField (raField w) = .ok ra ∧ regOfField (rbField w) = .ok rb ∧ j = mk ra rb := by
  unfold operandsRR
  split
  · next h => simp [h]
  · next h =>
    split
    · next h' => simp [h']
    · next h' =>
      cases hr : regOfField (raField w) <;> cases hq : regOfField (rbField w) <;> simp_all [eq_comm (a := j)]

/-- Everything shape `RI` accepts. -/
theorem operandsRI_ok {w : InstrWord} {mk : Reg → Word → Instr} {j : Instr} :
    operandsRI w mk = .ok j ↔
      rsvField w = 0#16 ∧ rbField w = 0#4 ∧
        ∃ ra, regOfField (raField w) = .ok ra ∧ j = mk ra (immField w) := by
  unfold operandsRI
  split
  · next h => simp [h]
  · next h =>
    split
    · next h'' => simp [h'']
    · next h'' =>
      cases hr : regOfField (raField w) <;> simp_all [eq_comm (a := j)]

end Sys2Proof
end

