-- ==== Sys2Proof/Laws/HostPort.lean ====
section
/-! SUPPORT. The host's program image (spec/20_memory.md R43): the eight bytes of a word make the word again. And the
status signals of the configuration inputs (spec/10_state.md R29): what they show depends on the inputs alone. -/

namespace Sys2Proof.Machine

@[simp] theorem length_wordBytes (w : InstrWord) : (wordBytes w).length = 8 := by simp [wordBytes]

/-- The bytes of a word, the least significant first, are the word. -/
theorem bytesWord_wordBytes (w : InstrWord) :
    bytesWord (w.extractLsb' 0 8) (w.extractLsb' 8 8) (w.extractLsb' 16 8) (w.extractLsb' 24 8)
      (w.extractLsb' 32 8) (w.extractLsb' 40 8) (w.extractLsb' 48 8) (w.extractLsb' 56 8) = w := by
  unfold bytesWord
  rw [BitVec.extractLsb'_append_extractLsb'_eq_extractLsb' (by rfl),
    BitVec.extractLsb'_append_extractLsb'_eq_extractLsb' (by rfl),
    BitVec.extractLsb'_append_extractLsb'_eq_extractLsb' (by rfl),
    BitVec.extractLsb'_append_extractLsb'_eq_extractLsb' (by rfl),
    BitVec.extractLsb'_append_extractLsb'_eq_extractLsb' (by rfl),
    BitVec.extractLsb'_append_extractLsb'_eq_extractLsb' (by rfl),
    BitVec.extractLsb'_append_extractLsb'_eq_extractLsb' (by rfl)]
  simp

/-! ### The status signals of the configuration inputs -/

theorem statusProgLen_congr {s t : State} (h : t.prog = s.prog) : statusProgLen t = statusProgLen s := by
  simp [statusProgLen, progLen, h]

theorem statusProgWord_congr {s t : State} (h : t.prog = s.prog) (k : Nat) :
    statusProgWord t k = statusProgWord s k := by simp [statusProgWord, h]

@[simp] theorem statusProgWord_eq (s : State) (k : Nat) : statusProgWord s k = s.prog[k]? := rfl
@[simp] theorem statusCfgDetails_eq (s : State) : statusCfgDetails s = s.cfgDetails := rfl
@[simp] theorem statusCfgInstructions_eq (s : State) : statusCfgInstructions s = s.cfgInstructions := rfl

@[simp] theorem loadProgram_prog (words : List InstrWord) (d i : Bool) (s : State) :
    (loadProgram words d i s).prog = words := rfl
@[simp] theorem loadProgram_cfgDetails (words : List InstrWord) (d i : Bool) (s : State) :
    (loadProgram words d i s).cfgDetails = d := rfl
@[simp] theorem loadProgram_cfgInstructions (words : List InstrWord) (d i : Bool) (s : State) :
    (loadProgram words d i s).cfgInstructions = i := rfl

/-- A program of a length R6 admits has its length as `N`. -/
theorem statusProgLen_toNat {s : State} (h : programLengthOk s.prog.length = true) :
    (statusProgLen s).toNat = s.prog.length := by
  have hle : s.prog.length ≤ 2147483647 := of_decide_eq_true h
  simp only [statusProgLen, progLen, BitVec.toNat_ofNat]
  omega

end Sys2Proof.Machine
end

