-- ==== Sys2Proof/Laws/PerInstr.lean ====
section
/-! SUPPORT. A fact about every instruction as syntax, one lemma per constructor: the fields its encoding holds
(spec/30_encoding.md R61, R62, R65). -/

namespace Sys2Proof.Laws

/-- The opcode of an instruction (R65). -/
def opcodeOf : Instr → Nat
  | .psh _ => 0x01
  | .pop => 0x02
  | .add _ _ => 0x03
  | .sub _ _ => 0x04
  | .mul _ _ => 0x05
  | .div _ _ => 0x06
  | .mov _ _ => 0x07
  | .set _ _ => 0x08
  | .tee _ _ => 0x09
  | .tne _ _ => 0x0A
  | .tll _ _ => 0x0B
  | .tmm _ _ => 0x0C
  | .tel _ _ => 0x0D
  | .tem _ _ => 0x0E
  | .jmp _ => 0x0F
  | .hlt => 0x10
  | .dmp => 0x11
  | .drg _ => 0x12
  | .dst => 0x13
  | .prt _ => 0x14
  | .pek => 0x15

/-- The encoding of the instruction holds its opcode and a reserved field of 0. -/
def EncodedFields.Statement (i : Instr) : Prop :=
  (opField (encode i)).toNat = opcodeOf i ∧ rsvField (encode i) = 0#16

/-- A word made of fields holds its opcode field and a reserved field of 0. -/
theorem EncodedFields.of_fields (op : BitVec 8) (ra rb : BitVec 4) (imm : Word) :
    (opField (encodeFields op ra rb imm)).toNat = op.toNat ∧ rsvField (encodeFields op ra rb imm) = 0#16 :=
  ⟨congrArg BitVec.toNat (opField_encodeFields op ra rb imm), rsvField_encodeFields op ra rb imm⟩

theorem EncodedFields.psh (v : Word) : EncodedFields.Statement (.psh v) :=
  EncodedFields.of_fields 0x01#8 _ _ _
theorem EncodedFields.pop : EncodedFields.Statement (.pop) :=
  EncodedFields.of_fields 0x02#8 _ _ _
theorem EncodedFields.add (ra rb : Reg) : EncodedFields.Statement (.add ra rb) :=
  EncodedFields.of_fields 0x03#8 _ _ _
theorem EncodedFields.sub (ra rb : Reg) : EncodedFields.Statement (.sub ra rb) :=
  EncodedFields.of_fields 0x04#8 _ _ _
theorem EncodedFields.mul (ra rb : Reg) : EncodedFields.Statement (.mul ra rb) :=
  EncodedFields.of_fields 0x05#8 _ _ _
theorem EncodedFields.div (ra rb : Reg) : EncodedFields.Statement (.div ra rb) :=
  EncodedFields.of_fields 0x06#8 _ _ _
theorem EncodedFields.mov (ra rb : Reg) : EncodedFields.Statement (.mov ra rb) :=
  EncodedFields.of_fields 0x07#8 _ _ _
theorem EncodedFields.set (ra : Reg) (v : Word) : EncodedFields.Statement (.set ra v) :=
  EncodedFields.of_fields 0x08#8 _ _ _
theorem EncodedFields.tee (ra rb : Reg) : EncodedFields.Statement (.tee ra rb) :=
  EncodedFields.of_fields 0x09#8 _ _ _
theorem EncodedFields.tne (ra rb : Reg) : EncodedFields.Statement (.tne ra rb) :=
  EncodedFields.of_fields 0x0A#8 _ _ _
theorem EncodedFields.tll (ra rb : Reg) : EncodedFields.Statement (.tll ra rb) :=
  EncodedFields.of_fields 0x0B#8 _ _ _
theorem EncodedFields.tmm (ra rb : Reg) : EncodedFields.Statement (.tmm ra rb) :=
  EncodedFields.of_fields 0x0C#8 _ _ _
theorem EncodedFields.tel (ra rb : Reg) : EncodedFields.Statement (.tel ra rb) :=
  EncodedFields.of_fields 0x0D#8 _ _ _
theorem EncodedFields.tem (ra rb : Reg) : EncodedFields.Statement (.tem ra rb) :=
  EncodedFields.of_fields 0x0E#8 _ _ _
theorem EncodedFields.jmp (v : Word) : EncodedFields.Statement (.jmp v) :=
  EncodedFields.of_fields 0x0F#8 _ _ _
theorem EncodedFields.hlt : EncodedFields.Statement (.hlt) :=
  EncodedFields.of_fields 0x10#8 _ _ _
theorem EncodedFields.dmp : EncodedFields.Statement (.dmp) :=
  EncodedFields.of_fields 0x11#8 _ _ _
theorem EncodedFields.drg (ra : Reg) : EncodedFields.Statement (.drg ra) :=
  EncodedFields.of_fields 0x12#8 _ _ _
theorem EncodedFields.dst : EncodedFields.Statement (.dst) :=
  EncodedFields.of_fields 0x13#8 _ _ _
theorem EncodedFields.prt (ra : Reg) : EncodedFields.Statement (.prt ra) :=
  EncodedFields.of_fields 0x14#8 _ _ _
theorem EncodedFields.pek : EncodedFields.Statement (.pek) :=
  EncodedFields.of_fields 0x15#8 _ _ _

end Sys2Proof.Laws
end

