-- ==== Sys2Proof/Tests/Slice0.lean ====
section
/-! SUPPORT. The model's own tests: ill-formed terms refused, words written out from spec/30_encoding.md decoded, one step
of each instruction against the tables of spec/95_test_vectors.md (L2), and a state that meets the hypotheses of
each statement. Expected values are the spec's, not the model's. -/

namespace Sys2Proof.Tests

open Sys2Proof Sys2Proof.Machine Sys2Proof.Spec

/-- The next state, where there is one. -/
def after (o : Host.Outcome State Fault Refusal) : Option State :=
  match o with
  | .next t => some t
  | .fault _ => none
  | .refused _ => none

/-- The build of the test vectors about to run a program from given registers and cells. -/
def start (x : Regs) (cells : Stack) (words : List InstrWord) : State :=
  { State.reset with cfg := Config.allOptions, prog := words, regs := x, stk := cells }

/-- One step of one word at index 0, and what it shows of the next state. -/
def shows {T : Type} (x : Regs) (cells : Stack) (w : InstrWord) (view : State → T) : Option T :=
  (after (step (start x cells [w]))).map view

/-- The word -1. -/
def m1 : Word := 0xFFFFFFFF#32
/-- -2^31. -/
def min32 : Word := 0x80000000#32
/-- 2^31 - 1. -/
def max32 : Word := 0x7FFFFFFF#32

/-! ### Ill-formed terms (spec/00_scope.md R6; 30_encoding.md R65; 10_state.md R31) -/

theorem test_wf_refuses_set_without_option : Instr.wf { Config.allOptions with hasSet := false } (.set .a 5#32) = false := by
  decide
theorem test_wf_refuses_pek_without_option : Instr.wf { Config.allOptions with hasPeek := false } .pek = false := by decide
theorem test_wf_accepts_both_with_options :
    (Instr.wf Config.allOptions (.set .a 5#32), Instr.wf Config.allOptions .pek) = (true, true) := by decide
theorem test_wf_refuses_no_cells : Config.wf { Config.allOptions with stackCap := 0 } = false := by decide
theorem test_wf_refuses_too_many_cells : Config.wf { Config.allOptions with stackCap := 2147483648 } = false := by decide
theorem test_wf_accepts_the_bounds :
    (Config.wf { Config.allOptions with stackCap := 1 }, Config.wf { Config.allOptions with stackCap := 2147483647 })
      = (true, true) := by decide
theorem test_wf_refuses_too_long_program : programLengthOk 2147483648 = false := by decide
theorem test_wf_refuses_zero_cell : Stack.wf [(0, 0#32)] = false := by decide
theorem test_wf_refuses_unsorted_cells : Stack.wf [(1, 5#32), (0, 6#32)] = false := by decide
theorem test_wf_refuses_repeated_cell : Stack.wf [(1, 5#32), (1, 6#32)] = false := by decide
theorem test_wf_refuses_cell_that_does_not_exist : Stack.below 4 [(4, 5#32)] = false := by decide

/-! ### Decoding, words written out from spec/30_encoding.md R61, R62, R65 (several are in L1, L2.1 and L3) -/

theorem test_decode_psh : decodeTableWord 64 0x0100000000000005 = some (.psh 5#32) := by decide
theorem test_decode_psh_min : decodeTableWord 64 0x0100000080000000 = some (.psh min32) := by decide
theorem test_decode_pop : decodeTableWord 64 0x0200000000000000 = some (.pop) := by decide
theorem test_decode_add : decodeTableWord 64 0x0309000000000000 = some (.add .a .eq) := by decide
theorem test_decode_sub : decodeTableWord 64 0x0402000000000000 = some (.sub .a .c) := by decide
theorem test_decode_mul : decodeTableWord 64 0x0510000000000000 = some (.mul .b .a) := by decide
theorem test_decode_div : decodeTableWord 64 0x0645000000000000 = some (.div .e .f) := by decide
theorem test_decode_mov : decodeTableWord 64 0x0765000000000000 = some (.mov .ip .f) := by decide
theorem test_decode_set : decodeTableWord 64 0x08200000FFFFFFF7 = some (.set .c 0xFFFFFFF7#32) := by decide
theorem test_decode_tee : decodeTableWord 64 0x0901000000000000 = some (.tee .a .b) := by decide
theorem test_decode_tne : decodeTableWord 64 0x0A78000000000000 = some (.tne .sp .st) := by decide
theorem test_decode_tll : decodeTableWord 64 0x0B34000000000000 = some (.tll .d .e) := by decide
theorem test_decode_tmm : decodeTableWord 64 0x0C02000000000000 = some (.tmm .a .c) := by decide
theorem test_decode_tel : decodeTableWord 64 0x0D96000000000000 = some (.tel .eq .ip) := by decide
theorem test_decode_tem : decodeTableWord 64 0x0E01000000000000 = some (.tem .a .b) := by decide
theorem test_decode_jmp : decodeTableWord 64 0x0F000000FFFFFFFF = some (.jmp m1) := by decide
theorem test_decode_hlt : decodeTableWord 64 0x1000000000000000 = some (.hlt) := by decide
theorem test_decode_dmp : decodeTableWord 64 0x1100000000000000 = some (.dmp) := by decide
theorem test_decode_drg : decodeTableWord 64 0x1260000000000000 = some (.drg .ip) := by decide
theorem test_decode_dst : decodeTableWord 64 0x1300000000000000 = some (.dst) := by decide
theorem test_decode_prt : decodeTableWord 64 0x1480000000000000 = some (.prt .st) := by decide
theorem test_decode_pek : decodeTableWord 64 0x1500000000000000 = some (.pek) := by decide

/-- The illegal words of L2.1. -/
theorem test_decode_illegal_words :
    [0x0000000000000000, 0x1600000000000000, 0xFF00000000000000, 0x1000000000000001, 0x0100000100000005,
      0x0110000000000005, 0x03A0000000000000, 0x030A000000000000, 0x1201000000000000].map (decodeTableWord 64) =
    [none, none, none, none, none, none, none, none, none] := by decide
theorem test_decode_disabled_options :
    ((decode Config.standard 0x0800000000000005#64).toOption, (decode Config.standard 0x1500000000000000#64).toOption) =
      (none, none) := by decide
theorem test_encode_writes_the_word : (encode (.add .a .eq), encode (.set .c 0xFFFFFFF7#32), encode (.jmp m1)) =
    (0x0309000000000000#64, 0x08200000FFFFFFF7#64, 0x0F000000FFFFFFFF#64) := by decide

/-! ### One step of each instruction (L2.2 to L2.7) -/

theorem test_psh_on_empty : shows Regs.reset [] 0x0100000000000005#64
    (fun t => (t.reg .sp, t.cells, t.reg .st, t.reg .ip)) = some (0#32, [5#32, 0#32, 0#32, 0#32], 5#32, 1#32) := by decide
theorem test_psh_on_full : shows { Regs.reset with sp := 3#32, st := 4#32 } [(0, 1#32), (1, 2#32), (2, 3#32), (3, 4#32)] 0x0100000000000005#64
    (fun t => (t.run, t.reg .sp, t.reg .st, t.reg .ip)) = some (.faulted .stackOverflow 0#32, 3#32, 4#32, 0#32) := by decide
theorem test_pop_to_next_cell : shows { Regs.reset with sp := 1#32 } [(0, 7#32), (1, 0xFFFFFFFD#32)] 0x0200000000000000#64
    (fun t => (t.reg .sp, t.reg .st, t.cells)) = some (0#32, 7#32, [7#32, 0xFFFFFFFD#32, 0#32, 0#32]) := by decide
theorem test_pop_last_cell : shows { Regs.reset with sp := 0#32 } [(0, 7#32), (1, 0xFFFFFFFD#32)] 0x0200000000000000#64
    (fun t => (t.reg .sp, t.reg .st, t.cells)) = some (m1, 0#32, [7#32, 0xFFFFFFFD#32, 0#32, 0#32]) := by decide
theorem test_pek_shows_top : shows { Regs.reset with sp := 0#32 } [(0, 9#32)] 0x1500000000000000#64
    (fun t => (t.reg .st, t.out, t.reg .sp)) = some (9#32, [.peek 0#32 9#32], 0#32) := by decide
theorem test_pek_on_empty : shows Regs.reset [] 0x1500000000000000#64
    (fun t => (t.run, t.out)) = some (.faulted .stackUnderflow 0#32, []) := by decide
theorem test_add_wraps : shows { Regs.reset with a := max32, b := 1#32 } [] 0x0301000000000000#64
    (fun t => (t.reg .a, t.reg .b)) = some (min32, 1#32) := by decide
theorem test_add_into_ip_has_no_decrement : shows { Regs.reset with a := 2#32 } [] 0x0360000000000000#64
    (fun t => t.reg .ip) = some (3#32) := by decide
theorem test_sub_wraps : shows { Regs.reset with a := 0#32, b := min32 } [] 0x0401000000000000#64
    (fun t => (t.reg .a, t.reg .b)) = some (min32, min32) := by decide
theorem test_sub_out_of_sp_domain : shows { Regs.reset with a := 1#32 } [] 0x0470000000000000#64
    (fun t => (t.run, t.reg .sp)) = some (.faulted .registerDomainViolation 0#32, m1) := by decide
theorem test_mul_signed : shows { Regs.reset with a := 0xFFFFFFF9#32, b := 6#32 } [] 0x0501000000000000#64
    (fun t => (t.reg .a, t.reg .b)) = some (0xFFFFFFD6#32, 6#32) := by decide
theorem test_mul_keeps_low_half : shows { Regs.reset with a := 65536#32, b := 65536#32 } [] 0x0501000000000000#64
    (fun t => (t.reg .a, t.reg .b)) = some (0#32, 65536#32) := by decide
theorem test_div_rounds_toward_zero : shows { Regs.reset with a := 0xFFFFFFF9#32, b := 2#32 } [] 0x0601000000000000#64
    (fun t => (t.reg .a, t.reg .b)) = some (0xFFFFFFFD#32, 2#32) := by decide
theorem test_div_by_zero_comes_first : shows Regs.reset [] 0x0670000000000000#64
    (fun t => (t.run, t.reg .sp)) = some (.faulted .divisionByZero 0#32, m1) := by decide
theorem test_mov_into_ip_continues_at_the_value : shows { Regs.reset with a := 4#32 } [] 0x0760000000000000#64
    (fun t => t.reg .ip) = some (4#32) := by decide
theorem test_mov_into_sp_keeps_st : shows { Regs.reset with a := 2#32, st := 7#32 } [] 0x0770000000000000#64
    (fun t => (t.reg .sp, t.reg .st, t.run)) = some (2#32, 7#32, .running) := by decide
theorem test_set_negative : shows Regs.reset [] 0x08200000FFFFFFF7#64
    (fun t => t.reg .c) = some (0xFFFFFFF7#32) := by decide
theorem test_set_out_of_sp_domain : shows Regs.reset [] 0x0870000000000004#64
    (fun t => (t.run, t.reg .sp)) = some (.faulted .registerDomainViolation 0#32, m1) := by decide
theorem test_tee_on_equal_values : shows { Regs.reset with a := 8#32, b := 8#32 } [] 0x0901000000000000#64
    (fun t => t.reg .eq) = some (1#32) := by decide
theorem test_tee_signed : shows { Regs.reset with a := m1, b := 0#32 } [] 0x0901000000000000#64
    (fun t => t.reg .eq) = some (0#32) := by decide
theorem test_tne_on_equal_values : shows { Regs.reset with a := 8#32, b := 8#32 } [] 0x0A01000000000000#64
    (fun t => t.reg .eq) = some (0#32) := by decide
theorem test_tne_signed : shows { Regs.reset with a := m1, b := 0#32 } [] 0x0A01000000000000#64
    (fun t => t.reg .eq) = some (1#32) := by decide
theorem test_tll_signed : shows { Regs.reset with a := m1, b := 0#32 } [] 0x0B01000000000000#64
    (fun t => t.reg .eq) = some (1#32) := by decide
theorem test_tll_on_the_extremes : shows { Regs.reset with a := max32, b := min32 } [] 0x0B01000000000000#64
    (fun t => t.reg .eq) = some (0#32) := by decide
theorem test_tmm_signed : shows { Regs.reset with a := m1, b := 0#32 } [] 0x0C01000000000000#64
    (fun t => t.reg .eq) = some (0#32) := by decide
theorem test_tmm_on_the_extremes : shows { Regs.reset with a := max32, b := min32 } [] 0x0C01000000000000#64
    (fun t => t.reg .eq) = some (1#32) := by decide
theorem test_tel_on_equal_values : shows { Regs.reset with a := 8#32, b := 8#32 } [] 0x0D01000000000000#64
    (fun t => t.reg .eq) = some (1#32) := by decide
theorem test_tel_on_the_extremes : shows { Regs.reset with a := max32, b := min32 } [] 0x0D01000000000000#64
    (fun t => t.reg .eq) = some (0#32) := by decide
theorem test_tem_on_equal_values : shows { Regs.reset with a := 8#32, b := 8#32 } [] 0x0E01000000000000#64
    (fun t => t.reg .eq) = some (1#32) := by decide
theorem test_tem_signed : shows { Regs.reset with a := m1, b := 0#32 } [] 0x0E01000000000000#64
    (fun t => t.reg .eq) = some (0#32) := by decide
theorem test_jmp_taken : shows { Regs.reset with eq := 1#32 } [] 0x0F00000000000002#64
    (fun t => (t.reg .ip, t.reg .eq)) = some (2#32, 1#32) := by decide
theorem test_jmp_negative_target_with_eq_0 : shows Regs.reset [] 0x0F000000FFFFFFFF#64
    (fun t => (t.run, t.reg .ip)) = some (.faulted .negativeJumpTarget 0#32, 0#32) := by decide
theorem test_hlt_advances_ip : shows Regs.reset [] 0x1000000000000000#64
    (fun t => (t.run, t.reg .ip)) = some (.halted, 1#32) := by decide
theorem test_dmp_after_reset : shows Regs.reset [] 0x1100000000000000#64
    (fun t => t.out) = some ([.dump [0#32, 0#32, 0#32, 0#32, 0#32, 0#32, 0#32, m1, 0#32, 0#32] [0#32, 0#32, 0#32, 0#32]]) := by decide
theorem test_drg_shows_its_register : shows { Regs.reset with e := 0xFFFFFFFE#32 } [] 0x1240000000000000#64
    (fun t => t.out) = some ([.reg .e 0xFFFFFFFE#32]) := by decide
theorem test_drg_ip_shows_its_own_index : shows Regs.reset [] 0x1260000000000000#64
    (fun t => (t.out, t.reg .ip)) = some ([.reg .ip 0#32], 1#32) := by decide
theorem test_dst_shows_nonzero_cells : shows Regs.reset [(0, 0xFFFFFF9C#32), (1, 7#32), (2, 15#32)] 0x1300000000000000#64
    (fun t => t.out) = some ([.stackNZ [(0, 0xFFFFFF9C#32), (1, 7#32), (2, 15#32)]]) := by decide
theorem test_dst_shows_cell_above_sp : shows Regs.reset [(1, 3#32)] 0x1300000000000000#64
    (fun t => t.out) = some ([.stackNZ [(1, 3#32)]]) := by decide
theorem test_prt_255 : shows { Regs.reset with a := 255#32 } [] 0x1400000000000000#64
    (fun t => t.out) = some ([.char 255#8]) := by decide
theorem test_prt_256_shows_nothing : shows { Regs.reset with a := 256#32 } [] 0x1400000000000000#64
    (fun t => (t.out, t.run)) = some ([], .running) := by decide

/-! ### The dispatcher -/

/-- L1.4: the empty program, with `cfg_instructions` set. -/
theorem test_empty_program_faults_after_its_listing :
    (after (step { State.reset with cfgInstructions := true })).map (fun t => (t.run, t.out)) =
      some (.faulted .programCounterOutOfRange 0#32, [.listing []]) := by decide

/-- L2.1: an illegal word. -/
theorem test_illegal_word_faults : shows Regs.reset [] 0x1000000000000001#64 (fun t => (t.run, t.reg .ip)) =
    some (.faulted .illegalInstruction 0#32, 0#32) := by decide

/-- spec/40_engine_cycle.md R80: `Set` is illegal where the build has none (L2.4). -/
theorem test_set_without_option_faults :
    (after (step { start Regs.reset [] [0x0800000000000001#64] with cfg := Config.standard })).map (fun t => t.run) =
      some (.faulted .illegalInstruction 0#32) := by decide

/-- spec/46_diagnostics.md R210: the trace shows the registers before the handler and, after it, before the
increment. -/
theorem test_trace_events :
    (after (step { start Regs.reset [] [0x0100000000000005#64] with cfgDetails := true })).map (fun t => t.out) =
      some [.trace .before 0#32 0x0100000000000005#64 [0#32, 0#32, 0#32, 0#32, 0#32, 0#32, 0#32, m1, 0#32, 0#32],
        .trace .after 0#32 0x0100000000000005#64 [0#32, 0#32, 0#32, 0#32, 0#32, 0#32, 0#32, 0#32, 5#32, 0#32]] := by
  decide

/-- spec/46_diagnostics.md R201: a host that accepts nothing holds the block in `Drg`, with no write of it visible; the
step has begun, so that `listed` is true (spec/10_state.md R33). -/
theorem test_hold_keeps_the_block :
    (after (step { start Regs.reset [] [0x1240000000000000#64] with outCredit := some 0 })).map
      (fun t => (t.reg .ip, t.out, t.listed, outEvent t, fetchIndexSignal t)) =
      some (0#32, [], true, some (.reg .e 0#32), none) := by decide

/-- spec/10_state.md R33, spec/46_diagnostics.md R211: held on the listing, in front of the fetch, `listed` is true. -/
theorem test_hold_on_the_listing :
    (after (step { State.reset with cfgInstructions := true, outCredit := some 0 })).map
      (fun t => (t.listed, t.run, t.out, outEvent t, fetchIndexSignal t)) =
      some (true, .running, [], some (.listing []), none) := by decide

/-- The listing accepted, `Drg` not: the listing is out once, `listed` is true, the block holds in `Drg`. -/
theorem test_listing_accepted_instruction_held :
    (after (step { start Regs.reset [] [0x1240000000000000#64] with cfgInstructions := true, outCredit := some 1 })).map
      (fun t => (t.listed, t.reg .ip, t.out, outEvent t, fetchIndexSignal t)) =
      some (true, 0#32, [.listing [0x1240000000000000#64]], some (.reg .e 0#32), none) := by decide

/-- spec/70_reset_and_hazards.md R259: what the block offers and fetches when no instruction is held. -/
theorem test_signals_of_a_step :
    (outEvent (start Regs.reset [] [0x1240000000000000#64]), fetchIndexSignal (start Regs.reset [] [0x1240000000000000#64]),
      fetchIndexSignal State.reset) = (some (.reg .e 0#32), some 0#32, none) := by decide

/-- spec/70_reset_and_hazards.md R258. -/
theorem test_dump_mode_program :
    dumpProgram [.drg .a, .psh 5#32, .pek, .dst, .prt .a, .dmp, .hlt] =
      [.dmp, .psh 5#32, .prt .a, .hlt, .dmp, .hlt] := by decide

/-- `withFetchWord` runs its instruction first, an optional one too. -/
theorem test_withFetchWord_runs_the_word :
    (after (step (State.reset.withFetchWord 64 0x08200000FFFFFFF7))).map (fun t => (t.reg .c, t.reg .ip)) =
      some (0xFFFFFFF7#32, 1#32) := by decide

/-! ### Witnesses: a state and operands that meet the hypotheses of each statement -/

/-- A block with two cells occupied, about to run the word. -/
def busy (w : InstrWord) : State :=
  start { Regs.reset with a := 7#32, b := 2#32, sp := 1#32, st := 6#32 } [(0, 5#32), (1, 6#32)] [w]

/-- The same block with a full stack. -/
def full (w : InstrWord) : State :=
  start { Regs.reset with a := 7#32, b := 2#32, sp := 3#32, st := 6#32 } [(0, 5#32), (1, 6#32), (3, 9#32)] [w]

/-- The block just after reset, about to run the word. -/
def fresh (w : InstrWord) : State := start Regs.reset [] [w]

/-- The block about to jump, `Eq` being 1. -/
def flagged (w : InstrWord) : State := start { Regs.reset with eq := 1#32 } [] [w]

/-- The block that executed `Hlt`. -/
def halted : State := { fresh 0#64 with run := .halted }
/-- The block that faulted at index 0. -/
def faulted : State := { fresh 0#64 with run := .faulted .illegalInstruction 0#32 }

/-- The block that holds in `Prt(A)`, the host accepting nothing. -/
def held : State :=
  { busy 0x1400000000000000#64 with
    listed := true, outCredit := some 0,
    hold := some (.instruction [.char 7#8] ((busy 0#64).regs.put .ip 1#32) (busy 0#64).stk .running) }

/-- The block that holds on its listing, the host accepting nothing. -/
def heldOnListing : State :=
  { busy 0#64 with cfgInstructions := true, listed := true, outCredit := some 0, hold := some .listing }

/-- A step against that host reaches the state `held`. -/
theorem test_held_is_reached : step { busy 0x1400000000000000#64 with outCredit := some 0 } = .next held := rfl
theorem witness_DecodeOfEncodeIsTheInstruction :
    Instr.wf Config.allOptions (.set .eq min32) = true ∧ Instr.wf Config.standard (.jmp m1) = true := by decide
theorem witness_EncodeOfDecodeIsTheWord :
    decode Config.allOptions 0x0390000000000000#64 = .ok (.add .eq .a) := rfl
theorem witness_OptionsGovernTwoOpcodesOnly :
    (opField 0x0390000000000000#64).toNat ≠ 0x08 ∧ (opField 0x0390000000000000#64).toNat ≠ 0x15 ∧
      Config.standard.hasSet = ({ Config.standard with stackCap := 9 } : Config).hasSet ∧
      (opField 0x0800000000000005#64).toNat = 0x08 ∧ Config.standard.hasSet = false ∧
      (opField 0x1500000000000000#64).toNat = 0x15 ∧ Config.standard.hasPeek = false := by decide
theorem witness_ProgramImageIsLittleEndianAndReadsBack :
    [0x0100000000000005#64][0]? = some 0x0100000000000005#64 ∧ 0 < 8 ∧ 7 < 8 := by decide
theorem witness_StatusShowsRunStateCodeAndIndex :
    (fresh 0#64).run = .running ∧ halted.run = .halted ∧ faulted.run = .faulted .illegalInstruction 0#32 ∧
      0 < (fresh 0#64).cfg.stackCap ∧ 3 < (fresh 0#64).cfg.stackCap := by decide
/-- A program of two words and one flag set, loaded: the status interface shows them (spec/10_state.md R29). -/
theorem test_status_shows_the_inputs :
    let s := loadProgram [0x0100000000000005#64, 0x1000000000000000#64] false true State.reset
    statusProgLen s = 2#32 ∧ statusProgWord s 0 = some 0x0100000000000005#64 ∧
      statusProgWord s 1 = some 0x1000000000000000#64 ∧ statusCfgDetails s = false ∧
      statusCfgInstructions s = true := by decide
theorem witness_StatusShowsTheConfigurationInputs :
    programLengthOk (busy 0x0200000000000000#64).prog.length = true ∧ programLengthOk 2147483647 = true ∧
      programLengthOk [0x0200000000000000#64].length = true ∧
      ShowsInputs (fresh 0x0200000000000000#64) (fresh 0x0200000000000000#64).prog
        (fresh 0x0200000000000000#64).cfgDetails (fresh 0x0200000000000000#64).cfgInstructions ∧
      programLengthOk (fresh 0x0200000000000000#64).prog.length = true ∧
      ∃ t, step (fresh 0x0200000000000000#64) = .next t := by
  refine ⟨by decide, by decide, by decide, ⟨by decide, fun k _ => rfl, rfl, rfl⟩, by decide, _, rfl⟩
theorem witness_ResetMeetsTheInvariant :
    BuildOk (busy 0#64) ∧ BuildOk { faulted with cfg := { Config.standard with stackCap := 2147483647 } } := by decide
theorem witness_StepKeepsTheInvariant :
    (StateInv (busy 0x0200000000000000#64) ∧ ∃ t, step (busy 0x0200000000000000#64) = .next t) ∧
      ∃ (s t : State), StateInv s ∧ s.hold ≠ none ∧ step s = .next t :=
  ⟨⟨by decide, _, rfl⟩, held, _, by decide, by decide, rfl⟩
theorem witness_StepAnswersInsideTheInvariant :
    StateInv (full 0x0100000000000005#64) ∧ StateInv (fresh 0x0200000000000000#64) := ⟨by decide, by decide⟩
/-- A block whose `Sp` lies above its stack: no run reaches it. -/
def astray : State := start { Regs.reset with sp := 4#32 } [] [0x0200000000000000#64]
theorem witness_StepRunsTheDecodedInstruction :
    (AboutToRun (busy 0x0200000000000000#64) 0x0200000000000000#64 .pop ∧
        ∃ t, exec .pop (atHandler (busy 0x0200000000000000#64) 0x0200000000000000#64) = .next t ∧ ¬ IsFaulted t) ∧
      (AboutToRun (fresh 0x0200000000000000#64) 0x0200000000000000#64 .pop ∧
        ∃ t, exec .pop (atHandler (fresh 0x0200000000000000#64) 0x0200000000000000#64) = .next t ∧ IsFaulted t) ∧
      (AboutToRun astray 0x0200000000000000#64 .pop ∧
        exec .pop (atHandler astray 0x0200000000000000#64) = .fault .noStackCell) :=
  ⟨⟨⟨rfl, ⟨rfl, rfl⟩, by decide, rfl, rfl⟩, _, rfl, (fun ⟨_, _, h⟩ => nomatch h)⟩,
    ⟨⟨rfl, ⟨rfl, rfl⟩, by decide, rfl, rfl⟩, _, rfl, _, _, rfl⟩,
    ⟨⟨rfl, ⟨rfl, rfl⟩, by decide, rfl, rfl⟩, rfl⟩⟩
theorem witness_IncrementFollowsEveryCompletedHandler :
    ∃ u t, AboutToRun (busy 0x0200000000000000#64) 0x0200000000000000#64 .pop ∧
      exec .pop (atHandler (busy 0x0200000000000000#64) 0x0200000000000000#64) = .next u ∧ ¬ IsFaulted u ∧
      step (busy 0x0200000000000000#64) = .next t :=
  ⟨_, _, ⟨rfl, ⟨rfl, rfl⟩, by decide, rfl, rfl⟩, rfl, (fun ⟨_, _, h⟩ => nomatch h), rfl⟩
theorem witness_FetchOutsideTheProgramFaults :
    (State.reset.run = .running ∧ HostAccepts State.reset ∧ (State.reset.prog.length : Int) ≤ (State.reset.reg .ip).toInt) ∧
      (∃ s : State, s.run = .running ∧ HostAccepts s ∧ (s.reg .ip).toInt = -1) ∧
      (∃ s : State, s.run = .running ∧ HostAccepts s ∧ (s.reg .ip).toInt = (s.prog.length : Int) ∧ s.prog ≠ []) :=
  ⟨by decide, ⟨start { Regs.reset with ip := m1 } [] [0#64], by decide⟩,
    ⟨start { Regs.reset with ip := 1#32 } [] [0#64], by decide⟩⟩
theorem witness_IllegalWordFaults :
    (fresh 0#64).run = .running ∧ HostAccepts (fresh 0#64) ∧ 0 ≤ ((fresh 0#64).reg .ip).toInt ∧
      (fresh 0#64).prog[((fresh 0#64).reg .ip).toNat]? = some 0#64 ∧ decode (fresh 0#64).cfg 0#64 = .error .unassignedOpcode :=
  ⟨rfl, ⟨rfl, rfl⟩, by decide, rfl, rfl⟩
theorem witness_WritePortChecksAndStores :
    PortRefuses (fresh 0#64) .sp (4#32 : Word).toInt ∧ PortRefuses (fresh 0#64) .sp (0xFFFFFFFE#32 : Word).toInt ∧
      PortRefuses (fresh 0#64) .eq (2#32 : Word).toInt ∧ ¬ PortRefuses (fresh 0#64) .sp (3#32 : Word).toInt ∧
      ¬ PortRefuses (fresh 0#64) .sp m1.toInt ∧ ¬ PortRefuses (fresh 0#64) .eq (1#32 : Word).toInt ∧
      ¬ PortRefuses (fresh 0#64) .ip min32.toInt := by
  unfold PortRefuses; decide
theorem witness_FaultsArePrecise :
    ∃ t, (full 0x0100000000000005#64).run = .running ∧ HostAccepts (full 0x0100000000000005#64) ∧
      step (full 0x0100000000000005#64) = .next t ∧ t.run = .faulted .stackOverflow 0#32 := ⟨_, rfl, ⟨rfl, rfl⟩, rfl, rfl⟩
theorem witness_HandlersRaiseOnlyTheirFaults :
    (fresh 0#64).run = .running ∧ (∃ t, exec (.div .sp .c) (fresh 0#64) = .next t ∧ t.run = .faulted .divisionByZero 0#32) ∧
      (∃ t, exec (.jmp m1) (fresh 0#64) = .next t ∧ t.run = .faulted .negativeJumpTarget 0#32) ∧
      (∃ t, exec .pop (fresh 0#64) = .next t ∧ t.run = .faulted .stackUnderflow 0#32) ∧
      (∃ t, exec (.set .eq 2#32) (fresh 0#64) = .next t ∧ t.run = .faulted .registerDomainViolation 0#32) ∧
      (full 0#64).run = .running ∧ ∃ t, exec (.psh 5#32) (full 0#64) = .next t ∧ t.run = .faulted .stackOverflow 0#32 :=
  ⟨rfl, ⟨_, rfl, rfl⟩, ⟨_, rfl, rfl⟩, ⟨_, rfl, rfl⟩, ⟨_, rfl, rfl⟩, rfl, ⟨_, rfl, rfl⟩⟩
theorem witness_StoppedBlockKeepsItsState :
    halted.run ≠ .running ∧ faulted.run ≠ .running := by decide
theorem witness_OnlyHltReachesHalted :
    (∃ t, (fresh 0x1000000000000000#64).run = .running ∧ ¬ HoldsInstruction (fresh 0x1000000000000000#64) ∧
        step (fresh 0x1000000000000000#64) = .next t ∧ t.run = .halted) ∧
      (∃ (s t : State), s.run = .running ∧ ¬ HoldsInstruction s ∧ step s = .next t ∧
        ∃ pending x m, t.hold = some (.instruction pending x m .halted)) ∧
      (held.run = .running ∧ ∃ t, step held = .next t) :=
  ⟨⟨_, rfl, (fun ⟨_, _, _, _, h⟩ => nomatch h), rfl, rfl⟩,
    ⟨{ fresh 0x1000000000000000#64 with cfgDetails := true, outCredit := some 1 }, _, rfl,
      (fun ⟨_, _, _, _, h⟩ => nomatch h), rfl, _, _, _, rfl⟩, rfl, _, rfl⟩
theorem witness_ProgramAndInputsNeverChange :
    (∃ t, step (busy 0x0301000000000000#64) = .next t) ∧ ∃ t, exec (.add .a .b) (busy 0#64) = .next t := ⟨⟨_, rfl⟩, ⟨_, rfl⟩⟩
theorem witness_OutputIsAppendOnlyAndUnread :
    ∃ t, step (busy 0x1100000000000000#64) = .next t ∧ t.out.length = 1 := ⟨_, rfl, rfl⟩
theorem witness_StepOutputFollowsTheMux :
    AboutToRun { busy 0x1100000000000000#64 with cfgDetails := true } 0x1100000000000000#64 .dmp ∧
      ∃ t, step { busy 0x1100000000000000#64 with cfgDetails := true } = .next t ∧ ¬ IsFaulted t ∧ t.out.length = 3 :=
  ⟨⟨rfl, ⟨rfl, rfl⟩, by decide, rfl, rfl⟩, _, rfl, (fun ⟨_, _, h⟩ => nomatch h), rfl⟩
theorem witness_FlagsChangeOnlyTheOutput :
    HostAccepts (busy 0x1100000000000000#64) ∧ ∃ t, Host.Core.run Sys2Proof.core 2 (busy 0x1100000000000000#64) = .next t :=
  ⟨⟨rfl, rfl⟩, _, rfl⟩
theorem witness_HeldInstructionCompletesUnchanged :
    ∃ t u v, step { busy 0x1100000000000000#64 with outCredit := none } = .next t ∧
      step { busy 0x1100000000000000#64 with outCredit := some 0 } = .next u ∧ u.hold ≠ none ∧ u.reg .ip = 0#32 ∧
      step { busy 0x1100000000000000#64 with outCredit := some 1 } = .next v ∧ v.reg .ip = 1#32 :=
  ⟨_, _, _, rfl, rfl, (fun h => nomatch h), rfl, rfl, rfl⟩
theorem witness_HeldBlockFetchesNothing :
    (StateInv held ∧ held.run = .running ∧ held.outCredit = some 0 ∧ [Event.char 7#8] ≠ [] ∧
        held.hold = some (.instruction [.char 7#8] ((busy 0#64).regs.put .ip 1#32) (busy 0#64).stk .running)) ∧
      ({ held with outCredit := none } : State).outCredit = none ∧
      (StateInv heldOnListing ∧ heldOnListing.run = .running ∧ heldOnListing.hold = some .listing ∧
        heldOnListing.listed = true ∧ heldOnListing.outCredit = some 0) := by decide
theorem witness_ListedIsSetWhenTheFirstStepBegins :
    (∃ t, (fresh 0#64).run = .running ∧ (fresh 0#64).hold = none ∧ (fresh 0#64).listed = false ∧ step (fresh 0#64) = .next t) ∧
      (heldOnListing.cfgInstructions = true ∧ heldOnListing.outCredit = some 0) ∧ ∃ t, exec .pop (busy 0#64) = .next t :=
  ⟨⟨_, rfl, rfl, rfl, rfl⟩, ⟨rfl, rfl⟩, _, rfl⟩
theorem witness_HandlerFrame :
    (∃ t, exec (.mov .f .sp) (busy 0#64) = .next t) ∧ ∃ t, exec (.psh 5#32) (busy 0#64) = .next t := ⟨⟨_, rfl⟩, ⟨_, rfl⟩⟩
theorem witness_OnlyPshWritesTheCellAboveSp :
    Stack.wf (busy 0#64).stk = true ∧ (∃ t, exec (.psh 5#32) (busy 0#64) = .next t) ∧
      (∃ t, exec .pop (busy 0#64) = .next t) ∧ ∀ v : Word, Instr.pop ≠ .psh v :=
  ⟨by decide, ⟨_, rfl⟩, ⟨_, rfl⟩, fun _ h => by cases h⟩
theorem witness_PshPushesTheImmediate :
    (StateInv (full 0#64) ∧ ((full 0#64).reg .sp).toInt + 1 ≥ ((full 0#64).cfg.stackCap : Int)) ∧
      (StateInv (fresh 0#64) ∧ ((fresh 0#64).reg .sp).toInt + 1 < ((fresh 0#64).cfg.stackCap : Int)) :=
  ⟨⟨by decide, by decide⟩, ⟨by decide, by decide⟩⟩
theorem witness_PopDropsTheTop :
    (StateInv (fresh 0#64) ∧ ((fresh 0#64).reg .sp).toInt < 0) ∧ (StateInv (busy 0#64) ∧ 0 < ((busy 0#64).reg .sp).toInt) ∧
      ∃ s : State, StateInv s ∧ (s.reg .sp).toInt = 0 :=
  ⟨⟨by decide, by decide⟩, ⟨by decide, by decide⟩, start { Regs.reset with sp := 0#32 } [(0, 7#32)] [], by decide⟩
theorem witness_PekRefreshesTheMirror :
    (StateInv (fresh 0#64) ∧ ((fresh 0#64).reg .sp).toInt < 0) ∧
      ∃ s : State, StateInv s ∧ (s.reg .sp).toInt = 0 ∧ s.reg .st ≠ s.cell 0 :=
  ⟨⟨by decide, by decide⟩, start { Regs.reset with sp := 0#32 } [(0, 7#32)] [], by decide⟩
theorem witness_StackBoundsAreAlwaysChecked :
    ((full 0#64).reg .sp).toInt = ((full 0#64).cfg.stackCap : Int) - 1 ∧ ((fresh 0#64).reg .sp).toInt = -1 ∧
      Stack.wf (busy 0#64).stk = true ∧ (busy 0#64).cfg.stackCap ≤ 4 ∧ ∃ t, exec (.psh 5#32) (busy 0#64) = .next t :=
  ⟨by decide, by decide, by decide, by decide, _, rfl⟩
theorem witness_PushThenPopRestoresSp :
    (StateInv (fresh 0#64) ∧ ((fresh 0#64).reg .sp).toInt = -1 ∧ ((fresh 0#64).reg .sp).toInt < ((fresh 0#64).cfg.stackCap : Int) - 1) ∧
      ∃ s : State, StateInv s ∧ 0 ≤ (s.reg .sp).toInt ∧ (s.reg .sp).toInt = (s.cfg.stackCap : Int) - 2 :=
  ⟨⟨by decide, by decide⟩, start { Regs.reset with sp := 2#32 } [(0, 7#32)] [], by decide⟩
theorem witness_AtMostCapacityPushesSucceed :
    StateInv (fresh 0#64) ∧ (fresh 0#64).run = .running ∧ ((fresh 0#64).reg .sp).toInt = -1 ∧
      [1#32, 2#32, 3#32, 4#32].length ≤ (fresh 0#64).cfg.stackCap ∧ ∃ t, PushesAll [1#32, 0#32] (fresh 0#64) t :=
  ⟨by decide, rfl, by decide, by decide, _, _, rfl, (fun h => by obtain ⟨_, _, h⟩ := h; cases h), _, rfl,
    (fun h => by obtain ⟨_, _, h⟩ := h; cases h), rfl⟩
theorem witness_AddWritesTheWrappedSum :
    PortRefuses (busy 0#64) .sp (wrapped (fun x y => x + y) (busy 0#64) .sp .a).toInt ∧
      ¬ PortRefuses (busy 0#64) .sp (wrapped (fun x y => x + y) (busy 0#64) .sp .b).toInt ∧
      ∃ t, exec (.add .ip .a) (busy 0#64) = .next t :=
  ⟨.inl ⟨rfl, by decide⟩, by unfold PortRefuses; decide, _, rfl⟩
theorem witness_SubWritesTheWrappedDifference :
    PortRefuses (busy 0#64) .eq (wrapped (fun x y => x - y) (busy 0#64) .eq .b).toInt ∧
      ¬ PortRefuses (busy 0#64) .sp (wrapped (fun x y => x - y) (busy 0#64) .sp .b).toInt :=
  ⟨.inr ⟨rfl, by decide⟩, by unfold PortRefuses; decide⟩
theorem witness_MulWritesTheWrappedProduct :
    PortRefuses (busy 0#64) .sp (wrapped (fun x y => x * y) (busy 0#64) .sp .a).toInt ∧
      ¬ PortRefuses (busy 0#64) .eq (wrapped (fun x y => x * y) (busy 0#64) .eq .b).toInt :=
  ⟨.inl ⟨rfl, by decide⟩, by unfold PortRefuses; decide⟩
theorem witness_DivWritesTheTruncatedQuotient :
    (busy 0#64).reg .c = 0#32 ∧ (busy 0#64).reg .b ≠ 0#32 ∧
      ¬ PortRefuses (busy 0#64) .sp (wrapped Int.tdiv (busy 0#64) .sp .b).toInt ∧
      ∃ s : State, s.reg .a ≠ 0#32 ∧ PortRefuses s .sp (wrapped Int.tdiv s .sp .a).toInt :=
  ⟨rfl, by decide, by unfold PortRefuses; decide,
    start { Regs.reset with a := m1, sp := 2#32 } [] [], by decide, .inl ⟨rfl, by decide⟩⟩
theorem witness_DivQuotientLeavesTheSignedRemainder :
    (busy 0#64).reg .b ≠ 0#32 ∧ ¬ (((busy 0#64).reg .a).toInt = -2147483648 ∧ ((busy 0#64).reg .b).toInt = -1) ∧
      ∃ s : State, s.reg .b ≠ 0#32 ∧ (s.reg .a).toInt = -2147483648 ∧ (s.reg .b).toInt = -1 :=
  ⟨by decide, by decide, start { Regs.reset with a := min32, b := m1 } [] [], by decide⟩
theorem witness_ArithmeticKeepsTheSecondOperand :
    (∃ t, exec (.add .a .b) (busy 0#64) = .next t) ∧ (∃ t, exec (.sub .a .b) (busy 0#64) = .next t) ∧
      (∃ t, exec (.mul .a .b) (busy 0#64) = .next t) ∧ (∃ t, exec (.div .a .b) (busy 0#64) = .next t) ∧ Reg.b ≠ .a :=
  ⟨⟨_, rfl⟩, ⟨_, rfl⟩, ⟨_, rfl⟩, ⟨_, rfl⟩, by decide⟩
theorem witness_MovCopiesTheSource :
    PortRefuses (busy 0#64) .sp ((busy 0#64).reg .a).toInt ∧ ¬ PortRefuses (busy 0#64) .sp ((busy 0#64).reg .b).toInt ∧
      ¬ PortRefuses (busy 0#64) .ip ((busy 0#64).reg .a).toInt := by
  unfold PortRefuses; decide
theorem witness_SetLoadsTheImmediate :
    PortRefuses (busy 0#64) .eq (2#32 : Word).toInt ∧ ¬ PortRefuses (busy 0#64) .eq (1#32 : Word).toInt ∧
      ¬ PortRefuses (busy 0#64) .ip min32.toInt := by
  unfold PortRefuses; decide
theorem witness_WritesToIpContinueWhereStated :
    AboutToRun (busy 0x0760000000000000#64) 0x0760000000000000#64 (.mov .ip .a) ∧
      AboutToRun (busy 0x0860000080000000#64) 0x0860000080000000#64 (.set .ip min32) ∧
      AboutToRun (busy 0x0361000000000000#64) 0x0361000000000000#64 (.add .ip .b) :=
  ⟨⟨rfl, ⟨rfl, rfl⟩, by decide, rfl, rfl⟩, ⟨rfl, ⟨rfl, rfl⟩, by decide, rfl, rfl⟩,
    ⟨rfl, ⟨rfl, rfl⟩, by decide, rfl, rfl⟩⟩
theorem witness_ComparisonsWriteTheirRelation :
    ∃ s : State, (s.reg .a).toInt = (s.reg .b).toInt ∧ (s.reg .a).toInt < (s.reg .c).toInt ∧
      (s.reg .c).toInt > (s.reg .a).toInt ∧ ¬ (s.reg .a).toInt < (s.reg .b).toInt ∧ ¬ (s.reg .a).toInt > (s.reg .b).toInt ∧
      ¬ (s.reg .c).toInt ≤ (s.reg .a).toInt ∧ ¬ (s.reg .a).toInt ≥ (s.reg .c).toInt :=
  ⟨start { Regs.reset with a := min32, b := min32, c := max32 } [] [], by decide⟩
theorem witness_RelatedComparisonsAreComplementary :
    (∃ t, exec (.tee .a .b) (busy 0#64) = .next t) ∧ (∃ t, exec (.tne .a .b) (busy 0#64) = .next t) ∧
      (∃ t, exec (.tll .a .b) (busy 0#64) = .next t) ∧ (∃ t, exec (.tem .a .b) (busy 0#64) = .next t) ∧
      (∃ t, exec (.tmm .a .b) (busy 0#64) = .next t) ∧ ∃ t, exec (.tel .a .b) (busy 0#64) = .next t :=
  ⟨⟨_, rfl⟩, ⟨_, rfl⟩, ⟨_, rfl⟩, ⟨_, rfl⟩, ⟨_, rfl⟩, _, rfl⟩
theorem witness_JmpJumpsWhenEqIsOne :
    m1.toInt < 0 ∧ 0 ≤ (0#32 : Word).toInt ∧ (flagged 0#64).reg .eq = 1#32 ∧ (fresh 0#64).reg .eq = 0#32 := by decide
theorem witness_JmpContinuesAtTargetOrFallsThrough :
    (AboutToRun (fresh 0x0F00000000000000#64) 0x0F00000000000000#64 (.jmp 0#32) ∧ 0 ≤ (0#32 : Word).toInt ∧
        (fresh 0x0F00000000000000#64).reg .eq = 0#32) ∧
      (AboutToRun (flagged 0x0F0000007FFFFFFF#64) 0x0F0000007FFFFFFF#64 (.jmp max32) ∧ 0 ≤ max32.toInt ∧
        (flagged 0x0F0000007FFFFFFF#64).reg .eq = 1#32) :=
  ⟨⟨⟨rfl, ⟨rfl, rfl⟩, by decide, rfl, rfl⟩, by decide, rfl⟩,
    ⟨rfl, ⟨rfl, rfl⟩, by decide, rfl, rfl⟩, by decide, rfl⟩
theorem witness_HltHaltsAndIpStillAdvances :
    AboutToRun (busy 0x1000000000000000#64) 0x1000000000000000#64 .hlt := ⟨rfl, ⟨rfl, rfl⟩, by decide, rfl, rfl⟩
theorem witness_DmpShowsRegistersAndAllCells :
    0 < (busy 0#64).cfg.stackCap ∧ 3 < (busy 0#64).cfg.stackCap := by decide
theorem witness_DstShowsTheNonzeroCells :
    StackOk (full 0#64) := by decide
theorem witness_PrtEmitsACharacterCode :
    ∃ s : State, (0 ≤ (s.reg .a).toInt ∧ (s.reg .a).toInt < 256) ∧ (0 ≤ (s.reg .b).toInt ∧ (s.reg .b).toInt < 256) ∧
      ¬ (0 ≤ (s.reg .c).toInt ∧ (s.reg .c).toInt < 256) ∧ ¬ (0 ≤ (s.reg .sp).toInt ∧ (s.reg .sp).toInt < 256) :=
  ⟨start { Regs.reset with a := 0#32, b := 255#32, c := 256#32 } [] [], by decide⟩
theorem witness_DiagnosticsAreReadOnly :
    (AboutToRun (busy 0x1100000000000000#64) 0x1100000000000000#64 .dmp ∧ ∃ t, step (busy 0x1100000000000000#64) = .next t) ∧
      (AboutToRun (busy 0x1260000000000000#64) 0x1260000000000000#64 (.drg .ip) ∧
        ∃ t, step (busy 0x1260000000000000#64) = .next t) ∧
      (AboutToRun (busy 0x1460000000000000#64) 0x1460000000000000#64 (.prt .ip) ∧
        ((busy 0x1460000000000000#64).reg .ip).toNat < 256 ∧ ∃ t, step (busy 0x1460000000000000#64) = .next t) :=
  ⟨⟨⟨rfl, ⟨rfl, rfl⟩, by decide, rfl, rfl⟩, _, rfl⟩, ⟨⟨rfl, ⟨rfl, rfl⟩, by decide, rfl, rfl⟩, _, rfl⟩,
    ⟨rfl, ⟨rfl, rfl⟩, by decide, rfl, rfl⟩, by decide, _, rfl⟩
theorem witness_PlacedWordIsTheNextOneFetched :
    decode Config.allOptions 0x1500000000000000#64 = .ok .pek := rfl

end Sys2Proof.Tests
end

section
/-! PROOFS of the statements about the state (spec/10_state.md): reset, and the output channel. -/

namespace Sys2Proof.Machine

/-! ### The reset values (R37) -/

/-- The register file after reset, in one equation. -/
theorem Regs.get_reset (r : Reg) : Regs.reset.get r = if r = .sp then BitVec.ofInt 32 (-1) else 0#32 := by
  cases r <;> rfl

theorem reg_assertReset (s : State) (r : Reg) :
    (assertReset s).reg r = if r = .sp then BitVec.ofInt 32 (-1) else 0#32 := Regs.get_reset r

@[simp] theorem cell_assertReset (s : State) (k : Nat) : (assertReset s).cell k = 0#32 := rfl

/-- Settles O7, row by row of R37's table: the registers by `reg_assertReset`, the rest by the field lemmas of
`assertReset`. -/
theorem resetLeavesTheStatedValues : Obligations.ResetLeavesTheStatedValues := by
  refine ⟨fun s => ?_, rfl⟩
  have hsp : ((assertReset s).reg .sp).toInt = -1 := by rw [reg_assertReset]; decide
  have hzero : ∀ r, r ≠ .sp → (assertReset s).reg r = 0#32 := fun r hr => by rw [reg_assertReset, if_neg hr]
  simp [hsp, hzero]

/-! ### The output channel (R35) -/

/-- From `s` the operation `f` answers `t`, having appended events to the channel, and it does the same, appending the
same events, whatever the channel holds. -/
def AppendsUnread (f : State → Host.Outcome State Fault Refusal) (s t : State) : Prop :=
  ∃ es, t.out = s.out ++ es ∧ ∀ o : List Event, f { s with out := o } = .next { t with out := o ++ es }

/-- An offer to the host appends the events the host accepts; how many those are depends on its credit alone. -/
theorem deliver_appendsUnread (p : List Event) (x : Regs) (m : Stack) (r : RunState) (s : State) :
    AppendsUnread (fun u => .next (deliver p x m r u)) s (deliver p x m r s) := by
  rcases Option.eq_none_or_eq_some s.outCredit with hc | ⟨n, hc⟩
  · rw [deliver_all hc]
    exact ⟨p, rfl, fun o => congrArg _ (deliver_all (s := { s with out := o }) hc p x m r)⟩
  · rcases Nat.lt_or_ge n p.length with hn | hn
    · rw [deliver_holds hc hn]
      exact ⟨p.take n, rfl, fun o => congrArg _ (deliver_holds (s := { s with out := o }) hc hn x m r)⟩
    · rw [deliver_fits hc hn]
      exact ⟨p, rfl, fun o => congrArg _ (deliver_fits (s := { s with out := o }) hc hn x m r)⟩

/-- Settling offers exactly the events the instruction added. -/
theorem settle_eq_deliver {s t : State} {es : List Event} (ho : t.out = s.out ++ es) :
    settle s t = deliver es t.regs t.stk t.run s := by
  rw [settle, ho, List.drop_left]

theorem runInstr_of_transact {s t : State} (h : transact s = .next t) : runInstr s = .next (settle s t) := by
  rw [runInstr, h]

/-- The instruction at `Ip` adds the same events whatever the channel holds, and so offers the same to the host. -/
theorem runInstr_appendsUnread {s t : State} (h : runInstr s = .next t) : AppendsUnread runInstr s t := by
  rcases runInstr_cases s with ⟨r, _, hr⟩ | ⟨u, hu, hr⟩ <;> rw [hr] at h <;> cases h
  obtain ⟨⟨es, ho⟩, -⟩ := transact_next hu
  obtain ⟨acc, hacc, hsame⟩ := deliver_appendsUnread es u.regs u.stk u.run s
  rw [settle_eq_deliver ho]
  refine ⟨acc, hacc, fun o => ?_⟩
  have htr := transact_port hu ho o s.outCredit s.hold
  rw [runInstr_of_transact htr, settle_eq_deliver rfl]
  exact hsame o

theorem cycle_of_stopped {s : State} (hr : s.run ≠ .running) : cycle s = .next s := by
  rcases cycle_cases s with ⟨_, hc⟩ | ⟨h, _⟩ | ⟨h, _⟩ | ⟨h, _⟩
  · exact hc
  all_goals exact absurd h hr

theorem cycle_of_held {s : State} {p : List Event} {x : Regs} {m : Stack} {r : RunState} (hr : s.run = .running)
    (hh : s.hold = some (.instruction p x m r)) : cycle s = .next (deliver p x m r s) := by
  rw [cycle, hr, hh]

theorem beginStep_of_blocked {s : State} (hb : listingBlocked s = true) :
    beginStep s = .next { s with listed := true, hold := some .listing } := by
  rw [beginStep, if_pos hb]

theorem beginStep_of_not_blocked {s : State} (hb : listingBlocked s = false) : beginStep s = runInstr (announce s) := by
  rw [beginStep, hb]; rfl

/-- Every step appends to the channel and does not read it. Which of the four things a step does (`cycle_cases`) depends
on the run state, the hold, `listed`, the flag and the credit, so the step from another channel does the same one. -/
theorem step_appendsUnread {s t : State} (h : step s = .next t) : AppendsUnread step s t := by
  unfold step at h
  rcases cycle_cases s with ⟨hr, hc⟩ | ⟨hr, p, x, m, r, hh, hc⟩ | ⟨hr, hno, hb, hc⟩ | ⟨hr, hno, hb, hc⟩ <;> rw [hc] at h
  case inl =>
    cases h
    exact ⟨[], (List.append_nil _).symm, fun o => by rw [List.append_nil]; exact cycle_of_stopped hr⟩
  case inr.inl =>
    cases h
    obtain ⟨acc, hacc, hsame⟩ := deliver_appendsUnread p x m r s
    exact ⟨acc, hacc, fun o => (cycle_of_held (s := { s with out := o }) hr hh).trans (hsame o)⟩
  case inr.inr.inl =>
    cases h
    refine ⟨[], (List.append_nil _).symm, fun o => ?_⟩
    rw [List.append_nil]
    exact (cycle_eq_beginStep (s := { s with out := o }) hr hno).trans (beginStep_of_blocked hb)
  case inr.inr.inr =>
    obtain ⟨acc, hacc, hsame⟩ := runInstr_appendsUnread h
    refine ⟨listingEvents s ++ acc, by rw [hacc, announce_out, List.append_assoc], fun o => ?_⟩
    calc step { s with out := o }
      _ = beginStep { s with out := o } := cycle_eq_beginStep hr hno
      _ = runInstr { announce s with out := o ++ listingEvents s } := beginStep_of_not_blocked hb
      _ = .next { t with out := o ++ (listingEvents s ++ acc) } := by rw [hsame, List.append_assoc]

/-- Settles O24: reset empties the channel by `assertReset_out`, and every step appends without reading it. -/
theorem outputIsAppendOnlyAndUnread : Obligations.OutputIsAppendOnlyAndUnread :=
  ⟨assertReset_out, fun _ _ h => step_appendsUnread h⟩

end Sys2Proof.Machine
end

section
/-! PROOFS of the statements about the stack instructions (spec/41_stack.md): `Psh`, and the bound checks. -/

namespace Sys2Proof.Machine

open Sys2Proof.Spec

/-! ### What `Psh` and `Pop` answer (R100, R102) -/

/-- The state a push leaves where there is room: the value in the cell `Sp + 1`, `Sp` one higher, the value in `St`. -/
def pushed (v : Word) (s : State) : State :=
  ({ s with stk := Stack.write s.stk ((s.reg .sp).toInt + 1).toNat v }.putReg .sp
    (wrap32 ((s.reg .sp).toInt + 1))).putReg .st v

/-- Everything `Psh` can answer as a next state: the overflow fault on a full stack, else a push into a cell that
exists. -/
theorem exec_psh_next_cases {v : Word} {s t : State} (h : exec (.psh v) s = .next t) :
    (s.cfg.stackCap ≤ (s.reg .sp).toInt + 1 ∧ t = takeFault .stackOverflow s) ∨
    (0 ≤ (s.reg .sp).toInt + 1 ∧ (s.reg .sp).toInt + 1 < s.cfg.stackCap ∧ t = pushed v s) := by
  change pushValue v s = _ at h
  rcases pushValue_cases v s with ⟨hfull, he⟩ | ⟨_, _, he⟩ | ⟨hroom, hcell, he⟩ <;> rw [he] at h <;> cases h
  · exact .inl ⟨hfull, rfl⟩
  · exact .inr ⟨hcell, hroom, rfl⟩

theorem exec_psh_of_full (v : Word) {s : State} (hfull : s.cfg.stackCap ≤ (s.reg .sp).toInt + 1) :
    exec (.psh v) s = .next (takeFault .stackOverflow s) := by
  rcases pushValue_cases v s with ⟨_, he⟩ | ⟨hroom, _⟩ | ⟨hroom, _⟩
  · exact he
  all_goals exact absurd hroom (Int.not_lt.mpr hfull)

theorem exec_psh_of_room (v : Word) {s : State} (hsp : SpOk s) (hroom : (s.reg .sp).toInt + 1 < s.cfg.stackCap) :
    exec (.psh v) s = .next (pushed v s) := by
  obtain ⟨t, ht⟩ := exec_answers (.psh v) hsp
  rcases exec_psh_next_cases ht with ⟨hfull, _⟩ | ⟨_, _, rfl⟩
  · exact absurd hroom (Int.not_lt.mpr hfull)
  · exact ht

theorem exec_pop_of_empty {s : State} (hempty : (s.reg .sp).toInt < 0) :
    exec .pop s = .next (takeFault .stackUnderflow s) := by
  rcases execPop_cases s with ⟨_, he⟩ | ⟨hsome, _⟩ | ⟨hsome, _⟩
  · exact he
  all_goals exact absurd hempty (Int.not_lt.mpr hsome)

/-- `Pop` writes no cell (decision D12: the popped cell keeps its value). -/
theorem exec_pop_stk {s t : State} (h : exec .pop s = .next t) : t.stk = s.stk := by
  change execPop s = _ at h
  rcases execPop_cases s with ⟨_, he⟩ | ⟨_, _, he⟩ | ⟨_, _, he⟩ <;> rw [he] at h <;> cases h <;> rfl

/-! ### The state after a push -/

@[simp] theorem pushed_st (v : Word) (s : State) : (pushed v s).reg .st = v := reg_putReg_same _ _ _

/-- R6's upper bound on `STACK_CAP`. -/
theorem stackCap_le_of_wf {c : Config} (h : c.wf = true) : c.stackCap ≤ 2147483647 :=
  of_decide_eq_true (Bool.and_eq_true_iff.mp h).2

/-- Within R6's bound on `STACK_CAP` the new `Sp` does not wrap. -/
theorem toInt_pushed_sp (v : Word) {s : State} (hcfg : s.cfg.wf = true)
    (hroom : (s.reg .sp).toInt + 1 < s.cfg.stackCap) :
    ((pushed v s).reg .sp).toInt = (s.reg .sp).toInt + 1 := by
  have hcap := stackCap_le_of_wf hcfg
  have hlo := toInt_lo (s.reg .sp)
  calc ((pushed v s).reg .sp).toInt
    _ = (wrap32 ((s.reg .sp).toInt + 1)).toInt := rfl
    _ = (s.reg .sp).toInt + 1 := toInt_wrap32 (by omega) (by omega)

theorem pushed_keepsRegsBut (v : Word) (s : State) : KeepsRegsBut [.sp, .st] s (pushed v s) := by
  intro r hr
  obtain ⟨hsp, hst⟩ : r ≠ .sp ∧ r ≠ .st := by simpa using hr
  rw [pushed, reg_putReg_ne _ _ hst, reg_putReg_ne _ _ hsp]
  rfl

/-- The cells after a push: `Sp + 1` holds the value, every other cell what it held. -/
theorem cell_pushed (v : Word) {s : State} (hwf : s.stk.wf = true) (k : Nat) :
    (pushed v s).cell k = if k = ((s.reg .sp).toInt + 1).toNat then v else s.cell k :=
  Stack.read_write s.stk _ k v hwf

theorem cell_pushed_ne {v : Word} {s : State} (hwf : s.stk.wf = true) (hcell : 0 ≤ (s.reg .sp).toInt + 1) {k : Nat}
    (hk : (k : Int) ≠ (s.reg .sp).toInt + 1) : (pushed v s).cell k = s.cell k := by
  rw [cell_pushed v hwf, if_neg (by omega)]

/-! ### The statements -/

/-- Settles O33: on a full stack the answer is the fault entry alone, else it is `pushed v s`, read field by field. -/
theorem pshPushesTheImmediate : Obligations.PshPushesTheImmediate := by
  refine ⟨fun v => ?_, fun v s ⟨⟨hcfg, _⟩, hsp, _, ⟨hwf, _⟩, _⟩ => ⟨fun hfull => ?_, fun hroom => ?_⟩⟩
  · simp [EncodedAs, encode]
  · exact ⟨_, exec_psh_of_full v hfull, rfl⟩
  · have hcell : 0 ≤ (s.reg .sp).toInt + 1 := by omega
    exact ⟨_, exec_psh_of_room v hsp hroom, toInt_pushed_sp v hcfg hroom, pushed_st v s,
      (cell_pushed v hwf _).trans (if_pos rfl), fun _ hk => cell_pushed_ne hwf hcell hk, pushed_keepsRegsBut v s,
      rfl, rfl, rfl, rfl, rfl, rfl, rfl, rfl, rfl⟩

/-- Settles O36: the fault clauses are the answers on a full and on an empty stack; the only cell written is the one a
push with room writes, and it is below `STACK_CAP`. -/
theorem stackBoundsAreAlwaysChecked : Obligations.StackBoundsAreAlwaysChecked := by
  refine ⟨fun v s hsp => ?_, fun s hsp => ?_, fun i s t hi hwf h k hk => ?_⟩
  · exact ⟨_, exec_psh_of_full v (by omega), rfl⟩
  · exact ⟨_, exec_pop_of_empty (by omega), rfl⟩
  · rcases hi with rfl | ⟨v, rfl⟩
    · exact congrArg (Stack.read · k) (exec_pop_stk h)
    · rcases exec_psh_next_cases h with ⟨_, rfl⟩ | ⟨hcell, hroom, rfl⟩
      · exact cell_takeFault s _ k
      · exact cell_pushed_ne hwf hcell (by omega)

end Sys2Proof.Machine
end

section
/-! PROOFS of the statements about the arithmetic instructions (spec/42_arithmetic.md): `Add`, `Sub` and `Mul`, and what
all four leave unchanged. -/

namespace Sys2Proof.Machine

open Sys2Proof.Spec

/-! ### The encoding of two register operands (R64, R65) -/

theorem toNat_field (r : Reg) : r.field.toNat = r.index := by cases r <;> rfl

/-- The fields of an instruction of shape `RR`. -/
theorem encodedAs_of_registers {i : Instr} {op : BitVec 8} {ra rb : Reg}
    (h : encode i = encodeFields op ra.field rb.field 0#32) : EncodedAs i op.toNat ra.index rb.index 0#32 := by
  simp [EncodedAs, h, toNat_field]

/-! ### The write port in the words of R84 -/

/-- The values the port refuses are the words outside the register's domain. -/
theorem portRefuses_iff (s : State) (r : Reg) (v : Word) :
    PortRefuses s r v.toInt ↔ inDomain s.cfg.stackCap r v = false := by
  have h0 : v.toInt = 0 ↔ v = 0#32 := BitVec.toInt_inj (y := 0#32)
  have h1 : v.toInt = 1 ↔ v = 1#32 := BitVec.toInt_inj (y := 1#32)
  rw [← Bool.not_eq_true, inDomain_iff, PortRefuses, ne_eq, ne_eq, h0, h1]
  tauto

theorem writeReg_of_refused {s : State} {r : Reg} {v : Word} (h : PortRefuses s r v.toInt) (mode : WriteMode) :
    writeReg r v mode s = takeFault .registerDomainViolation s := by
  rw [portRefuses_iff] at h
  rw [writeReg, h]; rfl

theorem writeReg_of_accepted {s : State} {r : Reg} {v : Word} (h : ¬ PortRefuses s r v.toInt) (mode : WriteMode) :
    writeReg r v mode s = s.putReg r (portValue r v mode) := by
  rw [portRefuses_iff, Bool.not_eq_false] at h
  rw [writeReg, if_pos h]

theorem keepsRegsBut_putReg (s : State) (r : Reg) (v : Word) : KeepsRegsBut [r] s (s.putReg r v) :=
  fun _ hq => reg_putReg_ne s v (List.ne_of_not_mem_cons hq)

theorem writesReg_putReg (s : State) (r : Reg) (v : Word) : WritesReg r v s (s.putReg r v) :=
  ⟨reg_putReg_same s r v, keepsRegsBut_putReg s r v, cell_putReg s r v, rfl, rfl, rfl, rfl, rfl, rfl, rfl, rfl, rfl⟩

/-! ### The shared operation `a := a OP b` (R124, R125) -/

/-- A handler that answers the shared operation does what R84 says of the wrapped result, in mode `plain`. -/
theorem arithResult_of_exec {i : Instr} {op : Int → Int → Int} {ra rb : Reg} {s : State}
    (h : exec i s = .next (arithWith op ra rb s)) : ArithResult i op ra rb s := by
  refine ⟨fun hrefused => ⟨_, h, writeReg_of_refused hrefused .plain⟩, fun haccepted => ⟨_, h, ?_⟩⟩
  have harith : arithWith op ra rb s = s.putReg ra (wrapped op s ra rb) :=
    (writeReg_of_accepted haccepted .plain).trans (congrArg (s.putReg ra) (portValue_plain ra _))
  rw [harith]
  exact writesReg_putReg s ra _

/-- The wrapped sum of two signed values is the sum of the words. -/
theorem wrapped_add (s : State) (ra rb : Reg) : wrapped (fun x y => x + y) s ra rb = s.reg ra + s.reg rb := by
  rw [wrapped, BitVec.ofInt_add, BitVec.ofInt_toInt, BitVec.ofInt_toInt]

theorem not_portRefuses_ip (s : State) (v : Int) : ¬ PortRefuses s .ip v := by simp [PortRefuses]

/-- The shared operation leaves every register but the first operand, whether the port stores or faults. -/
theorem arithWith_keepsRegsBut (op : Int → Int → Int) (ra rb : Reg) (s : State) :
    KeepsRegsBut [ra] s (arithWith op ra rb s) := by
  rcases arithWith_cases op ra rb s with ⟨_, he⟩ | ⟨_, he⟩ <;> rw [he]
  · exact keepsRegsBut_putReg s ra _
  · exact fun q _ => reg_takeFault s _ q

/-- `Div` leaves every register but the first operand; on a zero divisor it faults and leaves them all. -/
theorem execDiv_keepsRegsBut {ra rb : Reg} {s t : State} (h : execDiv ra rb s = .next t) : KeepsRegsBut [ra] s t := by
  rcases execDiv_cases ra rb s with ⟨_, he⟩ | ⟨_, he⟩ <;> rw [he] at h <;> cases h
  · exact fun q _ => reg_takeFault s _ q
  · exact arithWith_keepsRegsBut tdiv ra rb s

/-! ### The statements -/

/-- Settles O39: the shared operation with the sum; `Ip` takes any word, so `Add(Ip,b)` stores the sum, and the
increment adds 1. -/
theorem addWritesTheWrappedSum : Obligations.AddWritesTheWrappedSum := by
  refine ⟨fun _ _ => encodedAs_of_registers (op := 0x03#8) rfl, fun _ _ _ => arithResult_of_exec rfl,
    fun rb s t h => ?_⟩
  obtain ⟨-, hstores⟩ := arithResult_of_exec (i := .add .ip rb) (op := fun x y => x + y) (s := s) rfl
  obtain ⟨u, hu, hip, -⟩ := hstores (not_portRefuses_ip s _)
  cases h.symm.trans hu
  rw [increment_eq, reg_putReg_same, hip, wrapped_add]

/-- Settles O40: the shared operation with the difference. -/
theorem subWritesTheWrappedDifference : Obligations.SubWritesTheWrappedDifference :=
  ⟨fun _ _ => encodedAs_of_registers (op := 0x04#8) rfl, fun _ _ _ => arithResult_of_exec rfl⟩

/-- Settles O41: the shared operation with the product. -/
theorem mulWritesTheWrappedProduct : Obligations.MulWritesTheWrappedProduct :=
  ⟨fun _ _ => encodedAs_of_registers (op := 0x05#8) rfl, fun _ _ _ => arithResult_of_exec rfl⟩

/-- Settles O44: none of the four handlers writes a register but the first operand, so the second changes only when it
is the first. -/
theorem arithmeticKeepsTheSecondOperand : Obligations.ArithmeticKeepsTheSecondOperand := by
  intro ra rb s t i hi h
  have hkeeps : KeepsRegsBut [ra] s t := by
    rcases hi with rfl | rfl | rfl | rfl
    case inr.inr.inr => exact execDiv_keepsRegsBut h
    all_goals cases h; exact arithWith_keepsRegsBut _ ra rb s
  exact ⟨hkeeps, fun hne => hkeeps rb (by simpa using hne)⟩

end Sys2Proof.Machine
end

section
/-! PROOFS of the statements about the comparisons (spec/44_compare.md). -/

namespace Sys2Proof.Machine

open Sys2Proof.Spec

/-! ### The shared operation of the comparisons -/

@[simp] theorem flagWord_true : flagWord true = 1#32 := rfl
@[simp] theorem flagWord_false : flagWord false = 0#32 := rfl

/-- A comparison writes the flag of its relation into `Eq` and nothing else. -/
theorem compareWith_writesEq (rel : Int → Int → Bool) (ra rb : Reg) (s : State) :
    WritesReg .eq (flagWord (rel (s.reg ra).toInt (s.reg rb).toInt)) s (compareWith rel ra rb s) :=
  writesReg_putReg s .eq _

/-- A handler that answers the shared operation with a decidable relation writes 1 where the relation holds and 0 where
it does not. -/
theorem compareResult_of_exec {i : Instr} {rel : Int → Int → Prop} [DecidableRel rel] {ra rb : Reg} {s : State}
    (h : exec i s = .next (compareWith (fun x y => decide (rel x y)) ra rb s)) : CompareResult i rel ra rb s := by
  have hwrites := compareWith_writesEq (fun x y => decide (rel x y)) ra rb s
  refine ⟨_, h, fun hrel => ?_, fun hrel => ?_⟩
  · rwa [decide_eq_true hrel, flagWord_true] at hwrites
  · rwa [decide_eq_false hrel, flagWord_false] at hwrites

/-! ### The statements -/

/-- Settles O48: each of the six handlers is the shared operation with its own relation. -/
theorem comparisonsWriteTheirRelation : Obligations.ComparisonsWriteTheirRelation := by
  refine ⟨fun ra rb => ⟨?tee, ?tne, ?tll, ?tmm, ?tel, ?tem⟩, fun ra rb s => ⟨?_, ?_, ?_, ?_, ?_, ?_⟩⟩
  case tee => exact encodedAs_of_registers (op := 0x09#8) rfl
  case tne => exact encodedAs_of_registers (op := 0x0A#8) rfl
  case tll => exact encodedAs_of_registers (op := 0x0B#8) rfl
  case tmm => exact encodedAs_of_registers (op := 0x0C#8) rfl
  case tel => exact encodedAs_of_registers (op := 0x0D#8) rfl
  case tem => exact encodedAs_of_registers (op := 0x0E#8) rfl
  all_goals exact compareResult_of_exec rfl

end Sys2Proof.Machine
end

section
/-! PROOFS of the statements about the diagnostic instructions (spec/46_diagnostics.md): `Dmp`, `Drg` and `Prt`, and
what all four leave unchanged. -/

namespace Sys2Proof.Machine

open Sys2Proof.Spec

/-! ### The encoding (R61, R65) -/

/-- The fields of an encoding are the fields it was made of. -/
theorem encodedAs_of_fields {i : Instr} {op : BitVec 8} {ra rb : BitVec 4} {imm : Word}
    (h : encode i = encodeFields op ra rb imm) : EncodedAs i op.toNat ra.toNat rb.toNat imm := by
  simp [EncodedAs, h]

/-- The fields of an instruction of shape `R`. -/
theorem encodedAs_of_register {i : Instr} {op : BitVec 8} {r : Reg} (h : encode i = encodeFields op r.field 0#4 0#32) :
    EncodedAs i op.toNat r.index 0 0#32 :=
  toNat_field r ▸ encodedAs_of_fields h

/-! ### The stack cells `Dmp` shows -/

@[simp] theorem length_cells (s : State) : s.cells.length = s.cfg.stackCap := by simp [State.cells]

theorem getElem?_cells {s : State} {k : Nat} (hk : k < s.cfg.stackCap) : s.cells[k]? = some (s.cell k) := by
  simp [State.cells, hk]

/-! ### The handlers -/

/-- The value of the register is a character code (R206). -/
def HoldsCode (s : State) (r : Reg) : Prop := 0 ≤ (s.reg r).toInt ∧ (s.reg r).toInt < 256

theorem exec_prt_of_code {r : Reg} {s : State} (h : HoldsCode s r) :
    exec (.prt r) s = .next (emit (.char ((s.reg r).setWidth 8)) s) := by
  rcases execPrt_cases r s with ⟨_, he⟩ | ⟨hno, _⟩
  · rw [← charCode_eq h.1]
    exact he
  · exact absurd h hno

theorem exec_prt_of_no_code {r : Reg} {s : State} (h : ¬ HoldsCode s r) : exec (.prt r) s = .next s := by
  rcases execPrt_cases r s with ⟨hcode, _⟩ | ⟨_, he⟩
  · exact absurd hcode h
  · exact he

theorem handlerEvents_prt_of_code {r : Reg} {s : State} (h : HoldsCode s r) :
    handlerEvents (.prt r) s = [.char ((s.reg r).setWidth 8)] := if_pos h

theorem handlerEvents_prt_of_no_code {r : Reg} {s : State} (h : ¬ HoldsCode s r) : handlerEvents (.prt r) s = [] :=
  if_neg h

/-- The low byte of a register that holds a character code is the register's value. -/
theorem toNat_code {r : Reg} {s : State} (h : HoldsCode s r) :
    (((s.reg r).setWidth 8).toNat : Int) = (s.reg r).toInt := by
  obtain ⟨h0, h256⟩ := h
  have hnat := toNat_of_toInt_nonneg h0
  rw [BitVec.toNat_setWidth]
  omega

/-- The four instructions that write nothing but the output channel (R202). -/
def IsDiagnostic (i : Instr) : Prop := i = .dmp ∨ i = .dst ∨ ∃ r, i = .drg r ∨ i = .prt r

/-- A diagnostic handler adds the events of its row of the mux (R212), does nothing else and never faults. -/
theorem exec_of_isDiagnostic {i : Instr} (hi : IsDiagnostic i) (s : State) :
    exec i s = .next { s with out := s.out ++ handlerEvents i s } := by
  rcases hi with rfl | rfl | ⟨r, rfl | rfl⟩
  case inr.inr.inr =>
    by_cases h : HoldsCode s r
    · rw [handlerEvents_prt_of_code h]
      exact exec_prt_of_code h
    · rw [handlerEvents_prt_of_no_code h, List.append_nil]
      exact exec_prt_of_no_code h
  all_goals rfl

/-! ### The step of an instruction whose handler completes -/

theorem handlerInput_announce {s : State} (hacc : HostAccepts s) (w : InstrWord) :
    handlerInput w (announce s) = atHandler s w := by
  obtain ⟨hcredit, hhold⟩ := hacc
  simp only [handlerInput, announce, atHandler, listingEvents_of_no_hold hhold, hcredit, hhold]
  rfl

/-- The step of an instruction is its handler on the state R80 gives it, retired. -/
theorem step_of_exec {s u : State} {w : InstrWord} {i : Instr} (h : AboutToRun s w i)
    (hu : exec i (atHandler s w) = .next u) : step s = .next (retire (s.reg .ip) w u) := by
  obtain ⟨hrun, hacc, hip, hword, hdec⟩ := h
  have hstep : step s = transact (announce s) := cycle_of_accepts hrun hacc.1 hacc.2
  have hfetch : fetch (announce s) = some w := (fetch_announce s).trans (fetch_eq_some.mpr ⟨hip, hword⟩)
  rw [← handlerInput_announce hacc] at hu
  rcases transact_decoded hfetch hdec with ⟨t, ht, hnext⟩ | ⟨r, hr, _⟩
  · cases ht.symm.trans hu
    exact hstep.trans hnext
  · cases hr.symm.trans hu

/-- After a handler that leaves the block running come the second trace event and the increment. -/
theorem retire_of_running {t : State} (hrun : t.run = .running) (k : Word) (w : InstrWord) :
    retire k w t = { t with regs := t.regs.put .ip (t.reg .ip + 1#32),
                            out := t.out ++ traceDue t .after k w t.regs } := by
  rcases retire_cases k w t with ⟨⟨f, j, hf⟩, _⟩ | ⟨_, hr⟩
  · cases hrun.symm.trans hf
  · exact hr

/-- The state after the step of a diagnostic instruction: `Ip` one higher, `listed` set, and the events of R212 on the
channel in their order. -/
def diagnosed (i : Instr) (w : InstrWord) (s : State) : State :=
  { s with
    regs := s.regs.put .ip (s.reg .ip + 1#32)
    listed := true
    out := (atHandler s w).out ++ handlerEvents i s ++ traceDue s .after (s.reg .ip) w s.regs }

theorem step_of_isDiagnostic {s : State} {w : InstrWord} {i : Instr} (h : AboutToRun s w i) (hi : IsDiagnostic i) :
    step s = .next (diagnosed i w s) := by
  rw [step_of_exec h (exec_of_isDiagnostic hi _), retire_of_running]
  · rfl
  · exact h.1

theorem diagnosed_reg_ip (i : Instr) (w : InstrWord) (s : State) :
    (diagnosed i w s).reg .ip = s.reg .ip + 1#32 := Regs.get_put_same s.regs .ip _

theorem diagnosed_keepsRegsBut (i : Instr) (w : InstrWord) (s : State) : KeepsRegsBut [.ip] s (diagnosed i w s) :=
  keepsRegsBut_putReg s .ip _

theorem mem_out_diagnosed {i : Instr} {w : InstrWord} {s : State} {e : Event} (he : e ∈ handlerEvents i s) :
    e ∈ (diagnosed i w s).out :=
  List.mem_append_left _ (List.mem_append_right _ he)

/-- The events of a diagnostic handler, computed from the state before the step, are on the channel after it. -/
theorem mem_out_of_step {s t : State} {w : InstrWord} {i : Instr} {e : Event} (h : AboutToRun s w i)
    (hi : IsDiagnostic i) (hstep : step s = .next t) (he : e ∈ handlerEvents i s) : e ∈ t.out := by
  cases (step_of_isDiagnostic h hi).symm.trans hstep
  exact mem_out_diagnosed he

/-! ### The statements -/

/-- Settles O53: the event is `Dmp`'s row of the mux, and its cells are read by `length_cells` and `getElem?_cells`. -/
theorem dmpShowsRegistersAndAllCells : Obligations.DmpShowsRegistersAndAllCells :=
  ⟨encodedAs_of_fields (op := 0x11#8) (ra := 0#4) (rb := 0#4) rfl, fun s =>
    ⟨_, s.cells, exec_of_isDiagnostic (.inl rfl) s, rfl, length_cells s, fun _ hk => getElem?_cells hk⟩⟩

/-- Settles O54: the event is `Drg`'s row of the mux. -/
theorem drgShowsTheRegister : Obligations.DrgShowsTheRegister :=
  ⟨fun _ => encodedAs_of_register (op := 0x12#8) rfl, fun r s =>
    ⟨_, exec_of_isDiagnostic (.inr (.inr ⟨r, .inl rfl⟩)) s, rfl⟩⟩

/-- Settles O56: the two answers of `Prt`, the code being the register's low byte. -/
theorem prtEmitsACharacterCode : Obligations.PrtEmitsACharacterCode :=
  ⟨fun _ => encodedAs_of_register (op := 0x14#8) rfl, fun _ _ =>
    ⟨fun hcode => ⟨_, _, exec_prt_of_code hcode, rfl, toNat_code hcode⟩, exec_prt_of_no_code⟩⟩

/-- Settles O57: the handlers only add events, so a step of one of them is `diagnosed`; the events show `Ip` before the
increment. -/
theorem diagnosticsAreReadOnly : Obligations.DiagnosticsAreReadOnly := by
  refine ⟨fun i s hi => ⟨_, exec_of_isDiagnostic hi s, _, rfl⟩, fun s t w i h hi hstep => ?keeps,
    fun s t w h hstep => ?drg, fun s t w h hlt hstep => ?prt, fun s t w h hstep => ?dmp⟩
  case keeps =>
    cases (step_of_isDiagnostic h hi).symm.trans hstep
    exact ⟨diagnosed_keepsRegsBut i w s, diagnosed_reg_ip i w s, fun _ => rfl, h.1⟩
  case drg => exact mem_out_of_step h (.inr (.inr ⟨.ip, .inl rfl⟩)) hstep (List.mem_singleton_self _)
  case prt =>
    have ⟨_, _, hip, _⟩ := h
    have hnat := toNat_of_toInt_nonneg hip
    have hcode : HoldsCode s .ip := ⟨hip, by omega⟩
    refine mem_out_of_step h (.inr (.inr ⟨.ip, .inr rfl⟩)) hstep ?_
    rw [handlerEvents_prt_of_code hcode]
    exact List.mem_singleton_self _
  case dmp => exact ⟨s.regs.toList, s.cells, mem_out_of_step h (.inl rfl) hstep (List.mem_singleton_self _), rfl⟩

end Sys2Proof.Machine
end

section
/-! PROOFS of the statements about reset (spec/70_reset_and_hazards.md): the entry point. -/

namespace Sys2Proof.Machine

/-- At index 0 the fetch has no sign and no bound left to check: past the end the lookup itself answers nothing. -/
theorem fetch_of_reg_ip_zero {s : State} (hip : s.reg .ip = 0#32) : fetch s = s.prog[0]? := by
  ext w
  rw [fetch_eq_some, hip]
  exact and_iff_right (by decide)

/-- The reset row of `Ip` (R37) is the entry point of R251. -/
theorem reg_ip_assertReset (s : State) : (assertReset s).reg .ip = 0#32 := reg_assertReset s .ip

/-- Settles O9: reset leaves `Ip` at 0 and the program as it was, and the announcement changes neither. -/
theorem firstFetchAfterResetIsIndexZero : Obligations.FirstFetchAfterResetIsIndexZero := by
  refine fun s => ⟨reg_ip_assertReset s, assertReset_run s, ?_⟩
  calc fetch (announce (assertReset s))
      = fetch (assertReset s) := fetch_announce _
    _ = (assertReset s).prog[0]? := fetch_of_reg_ip_zero (reg_ip_assertReset s)
    _ = s.prog[0]? := by rw [assertReset_prog]

end Sys2Proof.Machine
end

section
/-! PROOFS of the statements about the encoding (spec/30_encoding.md; 20_memory.md R43): the round trips, the illegal
words, the options, and the host's program image. -/

namespace Sys2Proof

/-! ### What each shape reads back from the encoder's fields (R62, R66) -/

theorem operandsN_encodeFields (op : BitVec 8) (i : Instr) :
    operandsN (encodeFields op 0#4 0#4 0#32) i = .ok i := by simp [operandsN_ok]

theorem operandsI_encodeFields (op : BitVec 8) (v : Word) (mk : Word → Instr) :
    operandsI (encodeFields op 0#4 0#4 v) mk = .ok (mk v) := by simp [operandsI_ok]

theorem operandsR_encodeFields (op : BitVec 8) (ra : Reg) (mk : Reg → Instr) :
    operandsR (encodeFields op ra.field 0#4 0#32) mk = .ok (mk ra) := by simp [operandsR_ok]

theorem operandsRR_encodeFields (op : BitVec 8) (ra rb : Reg) (mk : Reg → Reg → Instr) :
    operandsRR (encodeFields op ra.field rb.field 0#32) mk = .ok (mk ra rb) := by simp [operandsRR_ok]

theorem operandsRI_encodeFields (op : BitVec 8) (ra : Reg) (v : Word) (mk : Reg → Word → Instr) :
    operandsRI (encodeFields op ra.field 0#4 v) mk = .ok (mk ra v) := by simp [operandsRI_ok]

/-! ### The only word of what a shape accepts (R66, R70) -/

/-- `w` is the one word of `i`, and `i` is legal. -/
def IsWordOf (c : Config) (w : InstrWord) (i : Instr) : Prop := encode i = w ∧ i.wf c = true

/-- A word is the encoding made of its own fields. -/
theorem encodeFields_eq_of_fields {w : InstrWord} {n : Nat} {ra rb : BitVec 4} {imm : Word}
    (hop : (opField w).toNat = n) (hrsv : rsvField w = 0#16) (hra : raField w = ra) (hrb : rbField w = rb)
    (himm : immField w = imm) : encodeFields (BitVec.ofNat 8 n) ra rb imm = w := by
  rw [← hop, BitVec.ofNat_toNat, BitVec.setWidth_eq, ← hra, ← hrb, ← himm, encodeFields_fields w hrsv]

section Shapes
variable {c : Config} {w : InstrWord} {n : Nat} {j : Instr} (hop : (opField w).toNat = n)
include hop

theorem isWordOf_of_operandsN {i : Instr} (h : operandsN w i = .ok j)
    (hi : encode i = encodeFields (BitVec.ofNat 8 n) 0#4 0#4 0#32 ∧ i.wf c = true) : IsWordOf c w j := by
  obtain ⟨hrsv, himm, hra, hrb, rfl⟩ := operandsN_ok.mp h
  exact ⟨hi.1.trans (encodeFields_eq_of_fields hop hrsv hra hrb himm), hi.2⟩

theorem isWordOf_of_operandsI {mk : Word → Instr} (h : operandsI w mk = .ok j)
    (hmk : ∀ v, encode (mk v) = encodeFields (BitVec.ofNat 8 n) 0#4 0#4 v ∧ (mk v).wf c = true) :
    IsWordOf c w j := by
  obtain ⟨hrsv, hra, hrb, rfl⟩ := operandsI_ok.mp h
  exact ⟨(hmk _).1.trans (encodeFields_eq_of_fields hop hrsv hra hrb rfl), (hmk _).2⟩

theorem isWordOf_of_operandsR {mk : Reg → Instr} (h : operandsR w mk = .ok j)
    (hmk : ∀ r, encode (mk r) = encodeFields (BitVec.ofNat 8 n) r.field 0#4 0#32 ∧ (mk r).wf c = true) :
    IsWordOf c w j := by
  obtain ⟨hrsv, himm, hrb, ra, hra, rfl⟩ := operandsR_ok.mp h
  exact ⟨(hmk _).1.trans (encodeFields_eq_of_fields hop hrsv (field_of_regOfField hra).symm hrb himm), (hmk _).2⟩

theorem isWordOf_of_operandsRR {mk : Reg → Reg → Instr} (h : operandsRR w mk = .ok j)
    (hmk : ∀ r q, encode (mk r q) = encodeFields (BitVec.ofNat 8 n) r.field q.field 0#32 ∧ (mk r q).wf c = true) :
    IsWordOf c w j := by
  obtain ⟨hrsv, himm, ra, rb, hra, hrb, rfl⟩ := operandsRR_ok.mp h
  exact ⟨(hmk _ _).1.trans (encodeFields_eq_of_fields hop hrsv (field_of_regOfField hra).symm
    (field_of_regOfField hrb).symm himm), (hmk _ _).2⟩

theorem isWordOf_of_operandsRI {mk : Reg → Word → Instr} (h : operandsRI w mk = .ok j)
    (hmk : ∀ r v, encode (mk r v) = encodeFields (BitVec.ofNat 8 n) r.field 0#4 v ∧ (mk r v).wf c = true) :
    IsWordOf c w j := by
  obtain ⟨hrsv, hrb, ra, hra, rfl⟩ := operandsRI_ok.mp h
  exact ⟨(hmk _ _).1.trans (encodeFields_eq_of_fields hop hrsv (field_of_regOfField hra).symm hrb rfl), (hmk _ _).2⟩

end Shapes

/-! ### What each shape rejects (R67) -/

theorem exists_error_iff {α : Type} (x : Except Illegal α) : (∃ e, x = .error e) ↔ ¬ ∃ a, x = .ok a := by
  cases x <;> simp

theorem operandsN_rejects {w : InstrWord} {i : Instr} :
    (∃ e, operandsN w i = .error e) ↔
      rsvField w ≠ 0#16 ∨ immField w ≠ 0#32 ∨ raField w ≠ 0#4 ∨ rbField w ≠ 0#4 := by
  simp [exists_error_iff, operandsN_ok, ← imp_iff_not_or]

theorem operandsI_rejects {w : InstrWord} {mk : Word → Instr} :
    (∃ e, operandsI w mk = .error e) ↔ rsvField w ≠ 0#16 ∨ raField w ≠ 0#4 ∨ rbField w ≠ 0#4 := by
  simp [exists_error_iff, operandsI_ok, ← imp_iff_not_or]

theorem exists_regOfField_iff {v : BitVec 4} : (∃ r, regOfField v = .ok r) ↔ ¬ 10 ≤ v.toNat := by
  rw [regOfField_ok_iff]; omega

theorem operandsR_rejects {w : InstrWord} {mk : Reg → Instr} :
    (∃ e, operandsR w mk = .error e) ↔
      rsvField w ≠ 0#16 ∨ immField w ≠ 0#32 ∨ rbField w ≠ 0#4 ∨ 10 ≤ (raField w).toNat := by
  have haccepts : (∃ j, operandsR w mk = .ok j) ↔ rsvField w = 0#16 ∧ immField w = 0#32 ∧ rbField w = 0#4 ∧
      ∃ ra, regOfField (raField w) = .ok ra := by
    simp only [operandsR_ok]; grind
  rw [exists_error_iff, haccepts, exists_regOfField_iff]; tauto

theorem operandsRI_rejects {w : InstrWord} {mk : Reg → Word → Instr} :
    (∃ e, operandsRI w mk = .error e) ↔ rsvField w ≠ 0#16 ∨ rbField w ≠ 0#4 ∨ 10 ≤ (raField w).toNat := by
  have haccepts : (∃ j, operandsRI w mk = .ok j) ↔ rsvField w = 0#16 ∧ rbField w = 0#4 ∧
      ∃ ra, regOfField (raField w) = .ok ra := by
    simp only [operandsRI_ok]; grind
  rw [exists_error_iff, haccepts, exists_regOfField_iff]; tauto

theorem operandsRR_rejects {w : InstrWord} {mk : Reg → Reg → Instr} :
    (∃ e, operandsRR w mk = .error e) ↔
      rsvField w ≠ 0#16 ∨ immField w ≠ 0#32 ∨ 10 ≤ (raField w).toNat ∨ 10 ≤ (rbField w).toNat := by
  have haccepts : (∃ j, operandsRR w mk = .ok j) ↔ rsvField w = 0#16 ∧ immField w = 0#32 ∧
      (∃ ra, regOfField (raField w) = .ok ra) ∧ ∃ rb, regOfField (rbField w) = .ok rb := by
    simp only [operandsRR_ok]; grind
  rw [exists_error_iff, haccepts, exists_regOfField_iff, exists_regOfField_iff]; tauto

/-! ### The statements -/

/-- Settles O1: the opcode selects the row of R65, and the row's shape reads the operands back. -/
theorem decodeOfEncodeIsTheInstruction : Obligations.DecodeOfEncodeIsTheInstruction := by
  intro c i hwf
  cases i with
  | psh | jmp => simp [decode, encode, operandsI_encodeFields]
  | pop | hlt | dmp | dst => simp [decode, encode, operandsN_encodeFields]
  | drg | prt => simp [decode, encode, operandsR_encodeFields]
  | add | sub | mul | div | mov | tee | tne | tll | tmm | tel | tem => simp [decode, encode, operandsRR_encodeFields]
  | pek => simp [decode, encode, operandsN_encodeFields, show c.hasPeek = true from hwf]
  | set ra v => simp [decode, encode, operandsRI_encodeFields, show c.hasSet = true from hwf]

/-- Settles O2: each row of R65 accepts, through its shape, only the word its own encoding makes. -/
theorem encodeOfDecodeIsTheWord : Obligations.EncodeOfDecodeIsTheWord := by
  intro c w i h
  change IsWordOf c w i
  unfold decode at h
  split at h
  case h_1 hop | h_15 hop => exact isWordOf_of_operandsI hop h fun _ => ⟨rfl, rfl⟩
  case h_2 hop | h_16 hop | h_17 hop | h_19 hop => exact isWordOf_of_operandsN hop h ⟨rfl, rfl⟩
  case h_18 hop | h_20 hop => exact isWordOf_of_operandsR hop h fun _ => ⟨rfl, rfl⟩
  case h_8 hop =>
    split at h
    · next hset => exact isWordOf_of_operandsRI hop h fun _ _ => ⟨rfl, hset⟩
    · cases h
  case h_21 hop =>
    split at h
    · next hpeek => exact isWordOf_of_operandsN hop h ⟨rfl, hpeek⟩
    · cases h
  case h_22 => cases h
  all_goals next hop => exact isWordOf_of_operandsRR hop h fun _ _ => ⟨rfl, rfl⟩

/-- Settles O3: in each row of R65 the conditions of R67 come down to what the row's shape rejects. -/
theorem decodeRejectsExactlyTheIllegalWords : Obligations.DecodeRejectsExactlyTheIllegalWords := by
  intro c w op usesRa usesRb usesImm
  simp only [usesRa, usesRb, usesImm]
  unfold decode
  split
  case h_1 hop | h_15 hop => simp [operandsI_rejects, op, hop]
  case h_2 hop | h_16 hop | h_17 hop | h_19 hop => simp [operandsN_rejects, op, hop]
  case h_18 hop | h_20 hop => simp [operandsR_rejects, op, hop]
  case h_8 hop =>
    cases c.hasSet
    · simp [op, hop]
    · simp [operandsRI_rejects, op, hop]
  case h_21 hop =>
    cases c.hasPeek
    · simp [op, hop]
    · simp [operandsN_rejects, op, hop]
  case h_22 =>
    have hrange : op = 0 ∨ 0x16 ≤ op := by grind
    simp [← or_assoc, hrange]
  all_goals next hop => simp [operandsRR_rejects, op, hop]

/-- Settles O4: no row of R65 but those of `0x08` and `0x15` reads the configuration. -/
theorem optionsGovernTwoOpcodesOnly : Obligations.OptionsGovernTwoOpcodesOnly := by
  refine ⟨fun c c' w h8 h15 => ?_, fun c c' w hset hpeek => ?_, fun c w hop hset => ?_, fun c w hop hpeek => ?_⟩
  · unfold decode
    split
    case h_8 hop => exact absurd hop h8
    case h_21 hop => exact absurd hop h15
    all_goals rfl
  · rw [decode, decode, hset, hpeek]
  · rw [decode, hop, hset]; rfl
  · rw [decode, hop, hpeek]; rfl

/-- Settles O5: the nine words, evaluated. -/
theorem writtenWordsDecodeAsTheSpecSays : Obligations.WrittenWordsDecodeAsTheSpecSays :=
  ⟨rfl, rfl, rfl, rfl, rfl, rfl, rfl, rfl, rfl⟩

end Sys2Proof

namespace Sys2Proof.Machine

/-! ### The program image (R43) -/

theorem programImage_cons (w : InstrWord) (words : List InstrWord) :
    programImage (w :: words) = wordBytes w ++ programImage words := List.flatMap_cons

/-- The bytes of a word, in order, at the front of an image. -/
theorem wordBytes_append (w : InstrWord) (rest : List Byte) :
    wordBytes w ++ rest = w.extractLsb' 0 8 :: w.extractLsb' 8 8 :: w.extractLsb' 16 8 :: w.extractLsb' 24 8 ::
      w.extractLsb' 32 8 :: w.extractLsb' 40 8 :: w.extractLsb' 48 8 :: w.extractLsb' 56 8 :: rest := rfl

theorem length_programImage (words : List InstrWord) : (programImage words).length = 8 * words.length := by
  induction words with
  | nil => rfl
  | cons w words ih => rw [programImage_cons, List.length_append, length_wordBytes, ih, List.length_cons]; omega

theorem getElem?_wordBytes (w : InstrWord) {j : Nat} (hj : j < 8) :
    (wordBytes w)[j]? = some (w.extractLsb' (8 * j) 8) := by simp [wordBytes, hj]

/-- The byte at `8k + j` is byte `j` of word `k`: skipping a word skips eight bytes. -/
theorem getElem?_programImage {j : Nat} (hj : j < 8) {w : InstrWord} : ∀ {words : List InstrWord} {k : Nat},
    words[k]? = some w → (programImage words)[8 * k + j]? = some (w.extractLsb' (8 * j) 8)
  | x :: words, 0, h => by
    cases h
    rw [programImage_cons, List.getElem?_append_left (by simpa using hj), Nat.mul_zero, Nat.zero_add,
      getElem?_wordBytes w hj]
  | x :: words, k + 1, h => by
    rw [programImage_cons, List.getElem?_append_right (by rw [length_wordBytes]; omega), length_wordBytes,
      show 8 * (k + 1) + j - 8 = 8 * k + j by omega]
    exact getElem?_programImage hj h

theorem imageProgram_programImage (words : List InstrWord) : imageProgram (programImage words) = some words := by
  induction words with
  | nil => rfl
  | cons w words ih => rw [programImage_cons, wordBytes_append, imageProgram, ih, bytesWord_wordBytes]

/-- Settles O6: each part by induction on the program, one word of eight bytes at a time. -/
theorem programImageIsLittleEndianAndReadsBack : Obligations.ProgramImageIsLittleEndianAndReadsBack := fun words =>
  ⟨length_programImage words, fun _ _ _ hw hj => getElem?_programImage hj hw, imageProgram_programImage words⟩

end Sys2Proof.Machine
end

section
/-! PROOFS of the statements about every handler: what a handler that completes leaves unchanged, which faults it raises
(spec/60_exceptions.md R220), and the port it writes registers through (spec/40_engine_cycle.md R84). -/

namespace Sys2Proof.Machine

open Sys2Proof.Spec

/-! ### Everything a handler can answer -/

/-- The handler of `i` completes: from `s` it leaves `t`. -/
structure Completes (i : Instr) (s t : State) : Prop where
  regs : KeepsRegsBut (writtenRegs i) s t
  run : t.run = s.run ∨ (i = .hlt ∧ t.run = .halted)
  out : t.out = s.out ++ handlerEvents i s
  stk : (∀ v, i ≠ .psh v) → t.stk = s.stk

/-- The handler of `i` stops on a fault of its row of the fault table. -/
def StopsOnItsFault (i : Instr) (s t : State) : Prop := ∃ kind, MayRaise i kind ∧ StopsWith kind s t

/-- A handler that shows nothing and writes one register. -/
theorem completes_putReg {i : Instr} {s : State} {r : Reg} (v : Word) (hregs : writtenRegs i = [r])
    (hquiet : handlerEvents i s = []) : Completes i s (s.putReg r v) where
  regs := hregs ▸ keepsRegsBut_putReg s r v
  run := .inl rfl
  out := by rw [hquiet, List.append_nil, putReg_out]
  stk _ := rfl

/-- A handler that does nothing but show its events. -/
theorem completes_events (i : Instr) (s : State) : Completes i s { s with out := s.out ++ handlerEvents i s } where
  regs _ _ := rfl
  run := .inl rfl
  out := rfl
  stk _ := rfl

/-- A handler that does nothing at all. -/
theorem completes_nothing {i : Instr} {s : State} (hquiet : handlerEvents i s = []) : Completes i s s := by
  simpa [hquiet] using completes_events i s

theorem keepsRegsBut_putReg_putReg (s : State) (r q : Reg) (v u : Word) :
    KeepsRegsBut [r, q] s ((s.putReg r v).putReg q u) := by
  intro p hp
  obtain ⟨hr, hq⟩ : p ≠ r ∧ p ≠ q := by simpa using hp
  rw [reg_putReg_ne _ _ hq, reg_putReg_ne _ _ hr]

/-- Only `Sp` and `Eq` have a domain that leaves words out. -/
theorem eq_sp_or_eq_of_not_inDomain {cap : Nat} {r : Reg} {v : Word} (h : inDomain cap r v = false) :
    r = .sp ∨ r = .eq := by
  cases r <;> simp_all [inDomain]

/-- A handler that ends in a write through the port. -/
theorem port_cases {i : Instr} {s : State} {r : Reg} (v : Word) (mode : WriteMode) (hregs : writtenRegs i = [r])
    (hquiet : handlerEvents i s = [])
    (hraises : r = .sp ∨ r = .eq → MayRaise i .registerDomainViolation) :
    StopsOnItsFault i s (writeReg r v mode s) ∨ Completes i s (writeReg r v mode s) := by
  rcases writeReg_cases r v mode s with ⟨_, he⟩ | ⟨hout, he⟩ <;> rw [he]
  · exact .inr (completes_putReg _ hregs hquiet)
  · exact .inl ⟨_, hraises (eq_sp_or_eq_of_not_inDomain hout), rfl⟩

/-- Everything a handler can answer as a next state. -/
theorem exec_next_cases {i : Instr} {s t : State} (h : exec i s = .next t) :
    StopsOnItsFault i s t ∨ Completes i s t := by
  cases i with
  | psh v =>
    rcases exec_psh_next_cases h with ⟨_, rfl⟩ | ⟨_, _, rfl⟩
    · exact .inl ⟨_, rfl, rfl⟩
    · exact .inr ⟨pushed_keepsRegsBut v s, .inl rfl, (List.append_nil _).symm, fun hne => absurd rfl (hne v)⟩
  | pop =>
    change execPop s = _ at h
    rcases execPop_cases s with ⟨_, he⟩ | ⟨_, _, he⟩ | ⟨_, _, he⟩ <;> rw [he] at h <;> cases h
    · exact .inl ⟨_, rfl, rfl⟩
    · exact .inr ⟨keepsRegsBut_putReg_putReg s _ _ _ _, .inl rfl, (List.append_nil _).symm, fun _ => rfl⟩
  | pek =>
    change execPek s = _ at h
    rcases execPek_cases s with ⟨_, he⟩ | ⟨_, _, he⟩ | ⟨_, _, he⟩ <;> rw [he] at h <;> cases h
    · exact .inl ⟨_, rfl, rfl⟩
    · exact .inr ⟨keepsRegsBut_putReg s .st _, .inl rfl, rfl, fun _ => rfl⟩
  | add | sub | mul | mov | set => cases h; exact port_cases _ _ rfl rfl fun hra => ⟨rfl, hra⟩
  | div ra rb =>
    change execDiv ra rb s = _ at h
    rcases execDiv_cases ra rb s with ⟨_, he⟩ | ⟨_, he⟩ <;> rw [he] at h <;> cases h
    · exact .inl ⟨_, .inl rfl, rfl⟩
    · exact port_cases _ _ rfl rfl fun hra => .inr ⟨rfl, hra⟩
  | jmp target =>
    change execJmp target s = _ at h
    rcases execJmp_cases target s with ⟨_, he⟩ | ⟨_, _, he⟩ | ⟨_, _, he⟩ <;> rw [he] at h <;> cases h
    · exact .inl ⟨_, rfl, rfl⟩
    · exact .inr (completes_putReg _ rfl rfl)
    · exact .inr (completes_nothing rfl)
  | hlt => cases h; exact .inr ⟨fun _ _ => rfl, .inr ⟨rfl, rfl⟩, (List.append_nil _).symm, fun _ => rfl⟩
  | dmp => cases h; exact .inr (completes_events .dmp s)
  | drg r => cases h; exact .inr (completes_events (.drg r) s)
  | dst => cases h; exact .inr (completes_events .dst s)
  | prt r =>
    rw [exec_of_isDiagnostic (.inr (.inr ⟨r, .inr rfl⟩))] at h
    cases h
    exact .inr (completes_events (.prt r) s)
  | tee | tne | tll | tmm | tel | tem => cases h; exact .inr (completes_putReg _ rfl rfl)

/-- No handler changes the inputs, `listed` or the output port. -/
theorem exec_keepsInputs {i : Instr} {s t : State} (h : exec i s = .next t) : KeepsInputs s t := by
  rcases exec_hostBlind i s s with ⟨r, hr, _⟩ | ⟨u, _, hu, _, _, hkeeps⟩
  · cases h.symm.trans hr
  · cases h.symm.trans hu
    exact hkeeps

/-- A next state that is not faulted is one the handler completes in. -/
theorem completes_of_not_faulted {i : Instr} {s t : State} (h : exec i s = .next t) (hf : ¬ IsFaulted t) :
    Completes i s t := by
  rcases exec_next_cases h with ⟨kind, _, rfl⟩ | hc
  · exact absurd ⟨kind, _, rfl⟩ hf
  · exact hc

/-- From a running block a handler's faulted state is a fault entry of its own. -/
theorem stopsWith_of_faulted {i : Instr} {s t : State} {kind : FaultKind} {k : Word} (hrun : s.run = .running)
    (h : exec i s = .next t) (hf : t.run = .faulted kind k) : MayRaise i kind ∧ StopsWith kind s t := by
  rcases exec_next_cases h with ⟨kind', hraise, rfl⟩ | hc
  · cases hf
    exact ⟨hraise, rfl⟩
  · rcases hc.run with hsame | ⟨_, hhalt⟩
    · cases (hsame.trans hrun).symm.trans hf
    · cases hhalt.symm.trans hf

/-! ### The statements -/

/-- Settles O20: the only faulted states a handler answers from a running block are its own fault entries. -/
theorem handlersRaiseOnlyTheirFaults : Obligations.HandlersRaiseOnlyTheirFaults :=
  fun _ _ _ _ _ hrun h hf => stopsWith_of_faulted hrun h hf

/-- Settles O31: a handler stops on its fault, with nothing else changed, or completes. -/
theorem handlerFrame : Obligations.HandlerFrame := by
  intro i s t h
  rcases exec_next_cases h with ⟨kind, hraise, rfl⟩ | hc
  · exact ⟨fun _ _ => rfl, exec_keepsInputs h, .inr (.inr ⟨kind, hraise, rfl⟩), .inl rfl⟩
  · exact ⟨hc.regs, exec_keepsInputs h, hc.run.imp_right .inl, .inr hc.out⟩

theorem exec_stk_of_ne_psh {i : Instr} {s t : State} (h : exec i s = .next t) (hi : ∀ v, i ≠ .psh v) :
    t.stk = s.stk := by
  rcases exec_next_cases h with ⟨kind, _, rfl⟩ | hc
  · rfl
  · exact hc.stk hi

/-- Settles O32: `Psh` writes one cell, the others write none. -/
theorem onlyPshWritesTheCellAboveSp : Obligations.OnlyPshWritesTheCellAboveSp := by
  refine fun i s t hwf h => ⟨fun k hk => ?_, exec_stk_of_ne_psh h⟩
  by_cases hi : ∃ v, i = .psh v
  · obtain ⟨v, rfl⟩ := hi
    rcases exec_psh_next_cases h with ⟨_, rfl⟩ | ⟨hcell, _, rfl⟩
    · exact cell_takeFault s _ k
    · exact cell_pushed_ne hwf hcell hk
  · exact congrArg (Stack.read · k) (exec_stk_of_ne_psh h (not_exists.mp hi))

end Sys2Proof.Machine
end

section
/-! PROOFS of the statements about the write port (spec/40_engine_cycle.md R84), the moves (spec/43_move.md), `Div`
(spec/42_arithmetic.md R123), the complementary comparisons (spec/44_compare.md R166), `Jmp` (spec/45_control.md R180)
and `Dst` (spec/46_diagnostics.md R205). -/

namespace Sys2Proof.Machine

open Sys2Proof.Spec

/-! ### The write port and the moves -/

/-- What the port stores, in the words of R84. -/
theorem portValue_eq (r : Reg) (v : Word) (mode : WriteMode) :
    portValue r v mode = if r = .ip ∧ mode = .move then v - 1#32 else v := by
  by_cases hr : r = .ip
  · subst hr
    cases mode
    · simp
    · simp [wrap32_sub_one]
  · rw [portValue_of_ne v mode hr, if_neg fun h => hr h.1]

/-- Settles O18: the port's two outcomes. -/
theorem writePortChecksAndStores : Obligations.WritePortChecksAndStores := by
  refine fun r v mode s => ⟨fun hrefused => writeReg_of_refused hrefused mode, fun haccepted => ?_⟩
  rw [writeReg_of_accepted haccepted, portValue_eq]
  exact writesReg_putReg s r _

/-- A handler that answers a write through the port in mode `move`. -/
theorem moveResult_of_exec {i : Instr} {ra : Reg} {v : Word} {s : State}
    (h : exec i s = .next (writeReg ra v .move s)) : MoveResult i ra v s := by
  obtain ⟨hrefuses, hstores⟩ := writePortChecksAndStores ra v .move s
  refine ⟨fun hr => ⟨_, h, hrefuses hr⟩, fun hr => ⟨_, h, ?_⟩⟩
  simpa using hstores hr

/-- Settles O45: `Mov` is the port with the source's value. -/
theorem movCopiesTheSource : Obligations.MovCopiesTheSource :=
  ⟨fun _ _ => encodedAs_of_registers (op := 0x07#8) rfl, fun _ _ _ => moveResult_of_exec rfl⟩

/-- Settles O46: `Set` is the port with the immediate. -/
theorem setLoadsTheImmediate : Obligations.SetLoadsTheImmediate :=
  ⟨fun ra _ => toNat_field ra ▸ encodedAs_of_fields (op := 0x08#8) (rb := 0#4) rfl, fun _ _ _ => moveResult_of_exec rfl⟩

/-! ### `Div` -/

/-- A word is 0 exactly when its signed value is. -/
theorem regOperand_eq_zero_iff {r : Reg} {s : State} : regOperand r s = 0 ↔ s.reg r = 0#32 :=
  BitVec.toInt_inj (y := 0#32)

theorem exec_div_of_zero {ra rb : Reg} {s : State} (h : s.reg rb = 0#32) :
    exec (.div ra rb) s = .next (takeFault .divisionByZero s) := if_pos (regOperand_eq_zero_iff.mpr h)

theorem exec_div_of_ne_zero {ra rb : Reg} {s : State} (h : s.reg rb ≠ 0#32) :
    exec (.div ra rb) s = .next (arithWith tdiv ra rb s) := if_neg (mt regOperand_eq_zero_iff.mp h)

/-- Settles O42: the zero divisor, else the shared operation with the truncated quotient. -/
theorem divWritesTheTruncatedQuotient : Obligations.DivWritesTheTruncatedQuotient :=
  ⟨fun _ _ => encodedAs_of_registers (op := 0x06#8) rfl, fun _ _ _ h => ⟨_, exec_div_of_zero h, rfl⟩,
    fun _ _ _ h => arithResult_of_exec (exec_div_of_ne_zero h)⟩

/-- The remainder of truncated division is smaller in size than the divisor and has the sign of the dividend. -/
theorem tmod_size_and_sign (n : Int) {d : Int} (hd : d ≠ 0) :
    (n.tmod d).natAbs < d.natAbs ∧ (0 < n.tmod d → 0 < n) ∧ (n.tmod d < 0 → n < 0) := by
  refine ⟨?size, fun hpos => ?pos, fun hneg => ?neg⟩
  case size =>
    rw [Int.natAbs_tmod]
    exact Nat.mod_lt _ (Int.natAbs_pos.mpr hd)
  case pos =>
    by_contra hn
    have hflip : 0 ≤ (-n).tmod d := Int.tmod_nonneg d (by omega)
    rw [Int.neg_tmod] at hflip
    omega
  case neg =>
    by_contra hn
    have := Int.tmod_nonneg d (a := n) (by omega)
    omega

/-- The truncated quotient of two words is a word, but for -2^31 and -1. -/
theorem tdiv_in_word {n d : Int} (hlo : -2147483648 ≤ n) (hhi : n ≤ 2147483647) (hd : d ≠ 0)
    (hwraps : ¬ (n = -2147483648 ∧ d = -1)) : -2147483648 ≤ n.tdiv d ∧ n.tdiv d ≤ 2147483647 := by
  have hsize : (n.tdiv d).natAbs ≤ n.natAbs := by
    rw [Int.natAbs_tdiv]
    exact Nat.div_le_self _ _
  refine ⟨by omega, ?_⟩
  by_contra hbig
  have hq : n.tdiv d = 2147483648 := by omega
  have hdivision := Int.mul_tdiv_add_tmod n d
  obtain ⟨hlt, hpos, hneg⟩ := tmod_size_and_sign n hd
  rw [hq] at hdivision
  omega

theorem exec_div_a_b {s : State} (hb : s.reg .b ≠ 0#32) :
    exec (.div .a .b) s = .next (s.putReg .a (wrap32 ((s.reg .a).toInt.tdiv (s.reg .b).toInt))) := by
  rw [exec_div_of_ne_zero hb]
  rfl

/-- Settles O43: the quotient is a word, so that it is not changed by the wrap, and its remainder is that of truncated
division; the one quotient that is no word is 2^31. -/
theorem divQuotientLeavesTheSignedRemainder : Obligations.DivQuotientLeavesTheSignedRemainder := by
  refine fun s hb =>
    ⟨_, exec_div_a_b hb, fun ⟨hA, hB⟩ => ?_, fun hwraps => ⟨(s.reg .a).toInt.tmod (s.reg .b).toInt, ?_⟩⟩
  · rw [reg_putReg_same, hA, hB]
    decide
  · have hd : (s.reg .b).toInt ≠ 0 := mt regOperand_eq_zero_iff.mp hb
    obtain ⟨hlo, hhi⟩ := tdiv_in_word (toInt_lo _) (toInt_hi _) hd hwraps
    rw [reg_putReg_same, toInt_wrap32 hlo hhi, Int.tdiv_mul_add_tmod]
    exact ⟨rfl, tmod_size_and_sign _ hd⟩

/-! ### The complementary comparisons -/

theorem reg_eq_compareWith (rel : Int → Int → Bool) (ra rb : Reg) (s : State) :
    (compareWith rel ra rb s).reg .eq = flagWord (rel (s.reg ra).toInt (s.reg rb).toInt) := reg_putReg_same s .eq _

theorem flagWord_add_flagWord_not (p : Bool) : (flagWord p).toInt + (flagWord (!p)).toInt = 1 := by
  cases p <;> rfl

/-- Comparisons with opposite relations leave values of `Eq` that sum to 1. -/
theorem compareWith_complementary {rel rel' : Int → Int → Bool} (hopp : ∀ x y, rel' x y = !rel x y) (ra rb : Reg)
    (s : State) : ((compareWith rel ra rb s).reg .eq).toInt + ((compareWith rel' ra rb s).reg .eq).toInt = 1 := by
  rw [reg_eq_compareWith, reg_eq_compareWith, hopp]
  exact flagWord_add_flagWord_not _

/-- Settles O49: each pair is the shared operation with opposite relations. -/
theorem relatedComparisonsAreComplementary : Obligations.RelatedComparisonsAreComplementary := by
  rintro ra rb s t u i j (⟨rfl, rfl⟩ | ⟨rfl, rfl⟩ | ⟨rfl, rfl⟩) ht hu <;> cases ht <;> cases hu
  · exact compareWith_complementary (fun x y => decide_not) ra rb s
  · exact compareWith_complementary (fun x y => by simp [← decide_not]) ra rb s
  · exact compareWith_complementary (fun x y => by simp [← decide_not]) ra rb s

/-! ### `Jmp` -/

theorem exec_jmp_of_negative {v : Word} (s : State) (hneg : v.toInt < 0) :
    exec (.jmp v) s = .next (takeFault .negativeJumpTarget s) := if_pos hneg

theorem exec_jmp_of_taken {v : Word} {s : State} (hv : 0 ≤ v.toInt) (heq : s.reg .eq = 1#32) :
    exec (.jmp v) s = .next (s.putReg .ip (v - 1#32)) := by
  rcases execJmp_cases v s with ⟨hneg, _⟩ | ⟨_, _, he⟩ | ⟨_, hno, _⟩
  · omega
  · rw [← wrap32_sub_one]
    exact he
  · exact absurd heq hno

theorem exec_jmp_of_not_taken {v : Word} {s : State} (hv : 0 ≤ v.toInt) (heq : s.reg .eq = 0#32) :
    exec (.jmp v) s = .next s := by
  rcases execJmp_cases v s with ⟨hneg, _⟩ | ⟨_, hyes, _⟩ | ⟨_, _, he⟩
  · omega
  · cases heq.symm.trans hyes
  · exact he

/-- Below a word that is not negative the predecessor does not wrap. -/
theorem toInt_sub_one {v : Word} (hv : 0 ≤ v.toInt) : (v - 1#32).toInt = v.toInt - 1 := by
  have hhi := toInt_hi v
  rw [← wrap32_sub_one, toInt_wrap32 (by omega) (by omega)]

/-- Settles O50: the three answers of `Jmp`. -/
theorem jmpJumpsWhenEqIsOne : Obligations.JmpJumpsWhenEqIsOne :=
  ⟨fun _ => encodedAs_of_fields (op := 0x0F#8) (ra := 0#4) (rb := 0#4) rfl, fun v s =>
    ⟨fun hneg => ⟨_, exec_jmp_of_negative s hneg, rfl⟩,
      fun hv heq => ⟨_, exec_jmp_of_taken hv heq, by rw [reg_putReg_same, toInt_sub_one hv], writesReg_putReg s .ip _⟩,
      exec_jmp_of_not_taken⟩⟩

/-! ### `Dst` -/

/-- The pairs `Dst` shows are those of the cells that exist and are not 0. -/
theorem mem_nonzeroCells {s : State} {k : Nat} {v : Word} :
    (k, v) ∈ s.nonzeroCells ↔ k < s.cfg.stackCap ∧ s.cell k = v ∧ v ≠ 0#32 := by
  simp only [State.nonzeroCells, List.mem_filterMap, List.mem_range, Option.ite_none_right_eq_some, Option.some.injEq,
    Prod.mk.injEq]
  grind

/-- They stand in strictly increasing index, as the indices run through `0 .. STACK_CAP - 1`. -/
theorem nonzeroCells_pairwise (s : State) : s.nonzeroCells.Pairwise (fun p q => p.1 < q.1) := by
  refine List.Pairwise.filterMap _ (fun j k hjk p hp q hq => ?_) List.pairwise_lt_range
  simp only [Option.ite_none_right_eq_some, Option.some.injEq] at hp hq
  obtain ⟨_, rfl⟩ := hp
  obtain ⟨_, rfl⟩ := hq
  exact hjk

/-- Lists of pairs in strictly increasing index are equal where they have the same pairs. -/
theorem eq_of_pairwise_index {l m : Stack} (hl : l.Pairwise (fun p q => p.1 < q.1))
    (hm : m.Pairwise (fun p q => p.1 < q.1)) (h : ∀ k v, (k, v) ∈ l ↔ (k, v) ∈ m) : l = m := by
  have : Std.Irrefl (fun p q : Nat × Word => p.1 < q.1) := ⟨fun p => Nat.lt_irrefl p.1⟩
  have : Std.Antisymm (fun p q : Nat × Word => p.1 < q.1) := ⟨fun _ _ hpq hqp => absurd hpq (Nat.lt_asymm hqp)⟩
  exact hl.eq_of_mem_iff hm fun p => h p.1 p.2

theorem nonzeroCells_eq_stk {s : State} (h : StackOk s) : s.nonzeroCells = s.stk := by
  obtain ⟨hwf, hbelow⟩ := h
  refine eq_of_pairwise_index (nonzeroCells_pairwise s) (Stack.pairwise_of_wfFrom _ hwf).1 fun k v => ?_
  have hmem := Stack.mem_iff_read s.stk hwf k v
  rw [mem_nonzeroCells, hmem]
  exact and_iff_right_of_imp fun hv => Stack.below_of_mem _ hbelow (k, v) (hmem.mpr hv)

/-- Settles O55: the event is `Dst`'s row of the mux. -/
theorem dstShowsTheNonzeroCells : Obligations.DstShowsTheNonzeroCells :=
  ⟨encodedAs_of_fields (op := 0x13#8) (ra := 0#4) (rb := 0#4) rfl, fun s =>
    ⟨_, s.nonzeroCells, exec_of_isDiagnostic (.inr (.inl rfl)) s, rfl, fun _ _ => mem_nonzeroCells,
      nonzeroCells_pairwise s, nonzeroCells_eq_stk⟩⟩

end Sys2Proof.Machine
end

section
/-! PROOFS of the statements about the stack instructions (spec/41_stack.md): `Pop`, `Pek`, and the laws of R105. -/

namespace Sys2Proof.Machine

open Sys2Proof.Spec

/-! ### What `Pop` and `Pek` answer where the stack is not empty (R102, R104) -/

/-- The state a pop leaves: `Sp` one lower, `St` the new top cell or 0. -/
def popped (s : State) : State :=
  (s.putReg .sp (wrap32 ((s.reg .sp).toInt - 1))).putReg .st (mirrorWord ((s.reg .sp).toInt - 1) s)

theorem exec_pop_of_nonempty {s : State} (hsp : SpOk s) (hnonempty : 0 ≤ (s.reg .sp).toInt) :
    exec .pop s = .next (popped s) := by
  rcases execPop_cases s with ⟨hempty, _⟩ | ⟨_, hout, _⟩ | ⟨_, _, he⟩
  · exact absurd hempty (Int.not_lt.mpr hnonempty)
  · exact absurd hsp.2 (Int.not_lt.mpr hout)
  · exact he

@[simp] theorem popped_st (s : State) : (popped s).reg .st = mirrorWord ((s.reg .sp).toInt - 1) s :=
  reg_putReg_same _ _ _

theorem popped_sp (s : State) : (popped s).reg .sp = wrap32 ((s.reg .sp).toInt - 1) := rfl

theorem popped_keepsRegsBut (s : State) : KeepsRegsBut [.sp, .st] s (popped s) :=
  keepsRegsBut_putReg_putReg s _ _ _ _

theorem mirrorWord_of_neg {k : Int} (hk : k < 0) (s : State) : mirrorWord k s = 0#32 := if_neg (Int.not_le.mpr hk)

theorem mirrorWord_of_nonneg {k : Int} (hk : 0 ≤ k) (s : State) : mirrorWord k s = s.cell k.toNat := if_pos hk

/-- The state `Pek` leaves: `St` the top cell, and the event that shows it. -/
def peeked (s : State) : State :=
  emit (.peek (s.reg .sp) (s.cell (s.reg .sp).toInt.toNat)) (s.putReg .st (s.cell (s.reg .sp).toInt.toNat))

theorem exec_pek_of_empty {s : State} (hempty : (s.reg .sp).toInt < 0) :
    exec .pek s = .next (takeFault .stackUnderflow s) := if_pos hempty

theorem exec_pek_of_nonempty {s : State} (hsp : SpOk s) (hnonempty : 0 ≤ (s.reg .sp).toInt) :
    exec .pek s = .next (peeked s) := by
  rcases execPek_cases s with ⟨hempty, _⟩ | ⟨_, hout, _⟩ | ⟨_, _, he⟩
  · exact absurd hempty (Int.not_lt.mpr hnonempty)
  · exact absurd hsp.2 (Int.not_lt.mpr hout)
  · exact he

/-- Settles O34: on an empty stack the answer is the fault entry alone, else it is `popped s`, read field by field. -/
theorem popDropsTheTop : Obligations.PopDropsTheTop := by
  refine ⟨encodedAs_of_fields (op := 0x02#8) (ra := 0#4) (rb := 0#4) rfl,
    fun s ⟨_, hsp, _⟩ => ⟨fun hempty => ⟨_, exec_pop_of_empty hempty, rfl⟩, fun hnonempty =>
      ⟨_, exec_pop_of_nonempty hsp hnonempty, ?sp, fun hlast => ?last, fun hmore => ?more, fun _ => rfl,
        popped_keepsRegsBut s, rfl, rfl, rfl, rfl, rfl, rfl, rfl, rfl, rfl⟩⟩⟩
  case sp =>
    have hhi := toInt_hi (s.reg .sp)
    rw [popped_sp, toInt_wrap32 (by omega) (by omega)]
  case last => rw [popped_st, mirrorWord_of_neg (by omega)]
  case more => rw [popped_st, mirrorWord_of_nonneg (by omega)]

/-- Settles O35: on an empty stack the answer is the fault entry alone, else it is `peeked s`, read field by field. -/
theorem pekRefreshesTheMirror : Obligations.PekRefreshesTheMirror :=
  ⟨encodedAs_of_fields (op := 0x15#8) (ra := 0#4) (rb := 0#4) rfl,
    fun s ⟨_, hsp, _⟩ => ⟨fun hempty => ⟨_, exec_pek_of_empty hempty, rfl⟩, fun hnonempty =>
      ⟨_, exec_pek_of_nonempty hsp hnonempty, reg_putReg_same s .st _, rfl, fun _ => rfl, keepsRegsBut_putReg s .st _,
        rfl, rfl, rfl, rfl, rfl, rfl, rfl, rfl⟩⟩⟩

/-! ### Sequences of pushes -/

/-- What a push needs of the state, and keeps. -/
structure PushReady (s : State) : Prop where
  cfg : s.cfg.wf = true
  sp : SpOk s
  stk : s.stk.wf = true
  run : s.run = .running

theorem pushed_cfg (v : Word) (s : State) : (pushed v s).cfg = s.cfg := rfl

theorem pushed_ready (v : Word) {s : State} (h : PushReady s) (hroom : (s.reg .sp).toInt + 1 < s.cfg.stackCap) :
    PushReady (pushed v s) where
  cfg := h.cfg
  sp := by
    have hsp := toInt_pushed_sp v h.cfg hroom
    have hlo := h.sp.1
    exact ⟨by omega, hsp ▸ hroom⟩
  stk := Stack.write_wf _ _ _ h.stk
  run := h.run

theorem not_isFaulted_of_running {s : State} (h : s.run = .running) : ¬ IsFaulted s := by
  rintro ⟨kind, k, hf⟩
  cases h.symm.trans hf

/-- A push that completes had room and leaves `pushed`. -/
theorem exec_psh_of_not_faulted {v : Word} {s u : State} (h : exec (.psh v) s = .next u) (hf : ¬ IsFaulted u) :
    (s.reg .sp).toInt + 1 < s.cfg.stackCap ∧ u = pushed v s := by
  rcases exec_psh_next_cases h with ⟨_, rfl⟩ | ⟨_, hroom, hu⟩
  · exact absurd ⟨_, _, rfl⟩ hf
  · exact ⟨hroom, hu⟩

/-- Pushes that all complete leave `Sp` inside the stack and as much higher as there are values. -/
theorem pushesAll_sp {vs : List Word} : ∀ {s t : State}, PushReady s → PushesAll vs s t →
    (s.reg .sp).toInt + vs.length < s.cfg.stackCap ∧ (t.reg .sp).toInt = (s.reg .sp).toInt + vs.length := by
  induction vs with
  | nil =>
    rintro s t hs rfl
    simpa using hs.sp.2
  | cons v vs ih =>
    rintro s t hs ⟨u, hu, hf, hrest⟩
    obtain ⟨hroom, rfl⟩ := exec_psh_of_not_faulted hu hf
    obtain ⟨hlt, hsp⟩ := ih (pushed_ready v hs hroom) hrest
    rw [toInt_pushed_sp v hs.cfg hroom] at hlt hsp
    rw [pushed_cfg] at hlt
    rw [List.length_cons, Nat.cast_succ]
    exact ⟨by omega, by omega⟩

/-- They write the cells above `Sp` only. -/
theorem pushesAll_cell_below {vs : List Word} {k : Nat} : ∀ {s t : State}, PushReady s → PushesAll vs s t →
    (k : Int) ≤ (s.reg .sp).toInt → t.cell k = s.cell k := by
  induction vs with
  | nil =>
    rintro s t _ rfl _
    rfl
  | cons v vs ih =>
    rintro s t hs ⟨u, hu, hf, hrest⟩ hk
    obtain ⟨hroom, rfl⟩ := exec_psh_of_not_faulted hu hf
    have hsp := toInt_pushed_sp v hs.cfg hroom
    have hlo := hs.sp.1
    rw [ih (pushed_ready v hs hroom) hrest (by omega), cell_pushed_ne hs.stk (by omega) (by omega)]

/-- The values stand above `Sp` in their order. -/
theorem pushesAll_cell_above {vs : List Word} {v : Word} : ∀ {s t : State} {k : Nat}, PushReady s → PushesAll vs s t →
    vs[k]? = some v → t.cell ((s.reg .sp).toInt + 1 + k).toNat = v := by
  induction vs with
  | nil => exact fun _ _ hv => nomatch hv
  | cons x vs ih =>
    rintro s t k hs ⟨u, hu, hf, hrest⟩ hv
    obtain ⟨hroom, rfl⟩ := exec_psh_of_not_faulted hu hf
    have hready := pushed_ready x hs hroom
    have hsp := toInt_pushed_sp x hs.cfg hroom
    have hlo := hs.sp.1
    cases k with
    | zero =>
      cases hv
      rw [pushesAll_cell_below hready hrest (by omega), cell_pushed v hs.stk, if_pos (by omega)]
    | succ k =>
      have hcell := ih hready hrest hv
      rwa [hsp, show (s.reg .sp).toInt + 1 + 1 + k = (s.reg .sp).toInt + 1 + (k + 1 : Nat) by omega] at hcell

/-- Pushes that have room complete. -/
theorem exists_pushesAll (vs : List Word) : ∀ {s : State}, PushReady s →
    (s.reg .sp).toInt + vs.length < s.cfg.stackCap → ∃ t, PushesAll vs s t := by
  induction vs with
  | nil => exact fun _ _ => ⟨_, rfl⟩
  | cons v vs ih =>
    intro s hs hlen
    rw [List.length_cons] at hlen
    have hroom : (s.reg .sp).toInt + 1 < s.cfg.stackCap := by omega
    have hready := pushed_ready v hs hroom
    have hsp := toInt_pushed_sp v hs.cfg hroom
    obtain ⟨t, ht⟩ := ih hready (by rw [pushed_cfg]; omega)
    exact ⟨t, _, exec_psh_of_room v hs.sp hroom, not_isFaulted_of_running hready.run, ht⟩

/-- Settles O37: `popped` undoes the `Sp` of `pushed` and reads the mirror from the cells under the pushed one. -/
theorem pushThenPopRestoresSp : Obligations.PushThenPopRestoresSp := by
  intro v s ⟨⟨hcfg, _⟩, hsp, _, ⟨hwf, _⟩, _⟩ hlt
  have hroom : (s.reg .sp).toInt + 1 < s.cfg.stackCap := by omega
  have hcell : 0 ≤ (s.reg .sp).toInt + 1 := by omega
  have hpushed := toInt_pushed_sp v hcfg hroom
  have hback : ((pushed v s).reg .sp).toInt - 1 = (s.reg .sp).toInt := by omega
  refine ⟨_, _, exec_psh_of_room v hsp hroom, exec_pop_of_nonempty ⟨by omega, hpushed ▸ hroom⟩ (by omega), ?sp, ?cell,
    fun hempty => ?empty, fun hnonempty => ?nonempty⟩
  case sp => rw [popped_sp, hback, wrap32_toInt]
  case cell => exact (cell_pushed v hwf _).trans (if_pos rfl)
  case empty => rw [popped_st, hback, mirrorWord_of_neg (by omega)]
  case nonempty =>
    rw [popped_st, hback, mirrorWord_of_nonneg hnonempty, cell_pushed_ne hwf hcell (by omega)]

/-- Settles O38: `Sp` counts the pushes from -1, which is the bound and the order of the cells. -/
theorem atMostCapacityPushesSucceed : Obligations.AtMostCapacityPushesSucceed := by
  intro vs s ⟨⟨hcfg, _⟩, hsp, _, ⟨hwf, _⟩, _⟩ hrun hempty
  have hready : PushReady s := ⟨hcfg, hsp, hwf, hrun⟩
  refine ⟨fun t ht => ?_, fun hlen => exists_pushesAll vs hready (by omega)⟩
  obtain ⟨hlt, htop⟩ := pushesAll_sp hready ht
  refine ⟨by omega, by omega, fun k v hv => ?_⟩
  have hcell := pushesAll_cell_above hready ht hv
  rwa [hempty, show ((-1 : Int) + 1 + k).toNat = k by omega] at hcell

end Sys2Proof.Machine
end

section
/-! PROOFS of the statements about the dispatcher (spec/40_engine_cycle.md R80 to R90) against a host that accepts every
event: the step of a decoded instruction, the two faults before it, and the order of the events. -/

namespace Sys2Proof.Machine

open Sys2Proof.Spec

/-! ### The step of a decoded instruction -/

/-- What `retire` makes of a state that is not faulted: the second trace event and the increment. -/
theorem retire_of_not_faulted {t : State} (hf : ¬ IsFaulted t) (k : Word) (w : InstrWord) :
    retire k w t = { t with regs := t.regs.put .ip (t.reg .ip + 1#32),
                            out := t.out ++ traceDue t .after k w t.regs } := by
  rcases retire_cases k w t with ⟨⟨f, j, hr⟩, _⟩ | ⟨_, hr⟩
  · exact absurd ⟨f, j, hr⟩ hf
  · exact hr

theorem retire_of_faulted {t : State} (hf : IsFaulted t) (k : Word) (w : InstrWord) : retire k w t = t := by
  obtain ⟨f, j, hr⟩ := hf
  rcases retire_cases k w t with ⟨_, h⟩ | ⟨hno, _⟩
  · exact h
  · exact absurd hr (hno f j)

theorem traceDue_congr {s t : State} (h : t.cfgDetails = s.cfgDetails) (phase : Phase) (k : Word) (w : InstrWord)
    (x : Regs) : traceDue t phase k w x = traceDue s phase k w x := by rw [traceDue, traceDue, h]

/-- The state after a handler that completed in `u`: `Ip` one higher and the second trace event out. -/
def retired (s : State) (w : InstrWord) (u : State) : State :=
  { u with regs := u.regs.put .ip (u.reg .ip + 1#32), out := u.out ++ traceDue s .after (s.reg .ip) w u.regs }

@[simp] theorem retired_reg_ip (s : State) (w : InstrWord) (u : State) : (retired s w u).reg .ip = u.reg .ip + 1#32 :=
  Regs.get_put_same u.regs .ip _

theorem retired_keepsRegsBut (s : State) (w : InstrWord) (u : State) : KeepsRegsBut [.ip] u (retired s w u) :=
  keepsRegsBut_putReg u .ip _

section
variable {s u : State} {w : InstrWord} {i : Instr}

theorem step_of_exec_faulted (h : AboutToRun s w i) (hu : exec i (atHandler s w) = .next u) (hf : IsFaulted u) :
    step s = .next u := by
  rw [step_of_exec h hu, retire_of_faulted hf]

theorem step_of_exec_completed (h : AboutToRun s w i) (hu : exec i (atHandler s w) = .next u) (hf : ¬ IsFaulted u) :
    step s = .next (retired s w u) := by
  obtain ⟨_, _, hdetails, _⟩ := exec_keepsInputs hu
  rw [step_of_exec h hu, retire_of_not_faulted hf, retired, traceDue_congr (s := s) hdetails]

theorem step_eq_transact (hrun : s.run = .running) (hacc : HostAccepts s) : step s = transact (announce s) :=
  cycle_of_accepts hrun hacc.1 hacc.2

theorem step_of_exec_fault {r : Fault} (h : AboutToRun s w i) (hr : exec i (atHandler s w) = .fault r) :
    step s = .fault r := by
  obtain ⟨hrun, hacc, hip, hword, hdec⟩ := h
  have hfetch : fetch (announce s) = some w := (fetch_announce s).trans (fetch_eq_some.mpr ⟨hip, hword⟩)
  rw [← handlerInput_announce hacc] at hr
  rcases transact_decoded hfetch hdec with ⟨t, ht, _⟩ | ⟨r', hr', hfault⟩
  · cases ht.symm.trans hr
  · cases hr'.symm.trans hr
    exact (step_eq_transact hrun hacc).trans hfault

/-- A step whose handler completes, seen from its end. -/
theorem exists_retired_of_step {t : State} (h : AboutToRun s w i) (hstep : step s = .next t) (hf : ¬ IsFaulted t) :
    ∃ u, exec i (atHandler s w) = .next u ∧ Completes i (atHandler s w) u ∧ t = retired s w u := by
  rcases exec_hostBlind i (atHandler s w) s with ⟨r, hr, _⟩ | ⟨u, _, hu, _⟩
  · cases (step_of_exec_fault h hr).symm.trans hstep
  · by_cases hfu : IsFaulted u
    · cases (step_of_exec_faulted h hu hfu).symm.trans hstep
      exact absurd hfu hf
    · cases (step_of_exec_completed h hu hfu).symm.trans hstep
      exact ⟨u, hu, completes_of_not_faulted hu hfu, rfl⟩

end

/-- Settles O14: the three answers of the handler. -/
theorem stepRunsTheDecodedInstruction : Obligations.StepRunsTheDecodedInstruction :=
  fun _ _ _ h => ⟨fun _ hu hf => step_of_exec_faulted h hu hf, fun _ hu hf => step_of_exec_completed h hu hf,
    fun _ hr => step_of_exec_fault h hr⟩

/-- Settles O15: the step ends in `retired`, which changes `Ip` alone. -/
theorem incrementFollowsEveryCompletedHandler : Obligations.IncrementFollowsEveryCompletedHandler := by
  intro s u t w i h hu hf hstep
  cases (step_of_exec_completed h hu hf).symm.trans hstep
  refine ⟨?_, retired_keepsRegsBut s w u, fun _ => rfl, rfl⟩
  rw [retired_reg_ip, BitVec.toInt_add]
  rfl

/-! ### The faults before the handler -/

/-- Against a host that accepts every event the start of a step sets `listed` and sends the listing when it is due. -/
theorem announce_of_accepts {s : State} (hacc : HostAccepts s) :
    announce s = { s with listed := true, out := s.out ++ listingDue s } := by
  obtain ⟨hcredit, hhold⟩ := hacc
  simp only [announce, listingEvents_of_no_hold hhold, hcredit, hhold]
  rfl

theorem transact_of_no_fetch {s : State} (h : fetch s = none) :
    transact s = .next (takeFault .programCounterOutOfRange s) := by rw [transact, h]

theorem transact_of_illegal {s : State} {w : InstrWord} {e : Illegal} (hf : fetch s = some w)
    (hd : decode s.cfg w = .error e) : transact s = .next (takeFault .illegalInstruction s) := by
  rcases transact_cases s with ⟨h, _⟩ | ⟨_, _, _, _, h⟩ | ⟨w', i, h, hd', _⟩
  · cases hf.symm.trans h
  · exact h
  · cases hf.symm.trans h
    cases hd.symm.trans hd'

/-- Settles O16: nothing is fetched, so the announced state takes the fault. -/
theorem fetchOutsideTheProgramFaults : Obligations.FetchOutsideTheProgramFaults := by
  intro s hrun hacc hout
  have hnone : fetch (announce s) = none := (fetch_announce s).trans (fetch_eq_none.mpr hout)
  rw [step_eq_transact hrun hacc, transact_of_no_fetch hnone, announce_of_accepts hacc]
  rfl

/-- Settles O17: the word is fetched and does not decode, so the announced state takes the fault. -/
theorem illegalWordFaults : Obligations.IllegalWordFaults := by
  intro s w e hrun hacc hip hword hdec
  have hfetch : fetch (announce s) = some w := (fetch_announce s).trans (fetch_eq_some.mpr ⟨hip, hword⟩)
  rw [step_eq_transact hrun hacc, transact_of_illegal hfetch hdec, announce_of_accepts hacc]
  rfl

/-- Everything a step of a running block can be, against a host that accepts every event. -/
theorem step_cases_of_accepts {s t : State} (hrun : s.run = .running) (hacc : HostAccepts s)
    (h : step s = .next t) :
    (∃ kind, t = { s with run := .faulted kind (s.reg .ip), listed := true, out := s.out ++ listingDue s }) ∨
    (∃ w i, AboutToRun s w i) := by
  rcases transact_cases (announce s) with ⟨hnone, _⟩ | ⟨w, e, hfetch, hdec, _⟩ | ⟨w, i, hfetch, hdec, _⟩
  · rw [fetch_announce] at hnone
    rw [fetchOutsideTheProgramFaults s hrun hacc (fetch_eq_none.mp hnone)] at h
    cases h
    exact .inl ⟨_, rfl⟩
  · obtain ⟨hip, hword⟩ := fetch_eq_some.mp ((fetch_announce s).symm.trans hfetch)
    rw [illegalWordFaults s w e hrun hacc hip hword hdec] at h
    cases h
    exact .inl ⟨_, rfl⟩
  · obtain ⟨hip, hword⟩ := fetch_eq_some.mp ((fetch_announce s).symm.trans hfetch)
    exact .inr ⟨w, i, hrun, hacc, hip, hword, hdec⟩

/-- Settles O19: the step faults before its handler, or with its handler's fault entry. -/
theorem faultsArePrecise : Obligations.FaultsArePrecise := by
  intro s t kind k hrun hacc hstep hf
  rcases step_cases_of_accepts hrun hacc hstep with ⟨_, rfl⟩ | ⟨w, i, h⟩
  · cases hf
    exact ⟨rfl, rfl, rfl, rfl, rfl, [], (List.append_nil _).symm, .inl rfl⟩
  · rcases exec_hostBlind i (atHandler s w) s with ⟨r, hr, _⟩ | ⟨u, _, hu, _⟩
    · cases (step_of_exec_fault h hr).symm.trans hstep
    · by_cases hfu : IsFaulted u
      · cases (step_of_exec_faulted h hu hfu).symm.trans hstep
        obtain ⟨_, rfl⟩ := stopsWith_of_faulted (s := atHandler s w) hrun hu hf
        cases hf
        exact ⟨rfl, rfl, rfl, rfl, rfl, _, rfl, .inr ⟨w, rfl⟩⟩
      · cases (step_of_exec_completed h hu hfu).symm.trans hstep
        exact absurd ⟨kind, k, hf⟩ hfu

/-! ### The order of the events (R212) -/

/-- What a handler shows does not depend on the listing and the first trace event before it. -/
theorem handlerEvents_atHandler (i : Instr) (s : State) (w : InstrWord) :
    handlerEvents i (atHandler s w) = handlerEvents i s := by cases i <;> rfl

/-- Taking the increment back gives the registers the handler left. -/
theorem retired_regs_before_increment (s : State) (w : InstrWord) (u : State) :
    (retired s w u).regs.put .ip ((retired s w u).reg .ip - 1#32) = u.regs := by
  refine Regs.ext_get fun r => ?_
  rw [Regs.get_put, retired_reg_ip, BitVec.add_sub_cancel]
  split
  · next hr => rw [hr]; rfl
  · next hr => exact Regs.get_put_ne u.regs _ hr

/-- Settles O25: the events of `retired`, whose handler appended those of its row of the mux. -/
theorem stepOutputFollowsTheMux : Obligations.StepOutputFollowsTheMux := by
  intro s t w i h hstep hf
  obtain ⟨u, _, hc, rfl⟩ := exists_retired_of_step h hstep hf
  rw [retired_regs_before_increment]
  show u.out ++ _ = _
  rw [hc.out, handlerEvents_atHandler]
  rfl

/-! ### Where the run continues (R90, R181, R261) -/

/-- The step of a handler that completes running, with `Ip` at `k`, continues at `k + 1`. -/
theorem step_continues {s u : State} {w : InstrWord} {i : Instr} (h : AboutToRun s w i)
    (hu : exec i (atHandler s w) = .next u) (hrun : u.run = .running) :
    ∃ t, step s = .next t ∧ t.reg .ip = u.reg .ip + 1#32 ∧ t.run = .running :=
  ⟨_, step_of_exec_completed h hu (not_isFaulted_of_running hrun), retired_reg_ip s w u, hrun⟩

/-- A handler that writes `v` into `Ip` continues at `v + 1`. -/
theorem step_continues_of_writesReg {s u : State} {w : InstrWord} {i : Instr} {v : Word} (h : AboutToRun s w i)
    (hu : exec i (atHandler s w) = .next u) (hw : WritesReg .ip v (atHandler s w) u) :
    ∃ t, step s = .next t ∧ t.reg .ip = v + 1#32 := by
  obtain ⟨hip, _, _, hrun, _⟩ := hw
  obtain ⟨t, ht, hnext, _⟩ := step_continues h hu (hrun.trans h.1)
  exact ⟨t, ht, hip ▸ hnext⟩

/-- A move of `v` into `Ip` continues at `v`: the port takes 1 off and the increment adds it. -/
theorem step_continues_of_move {s : State} {w : InstrWord} {i : Instr} {v : Word} (h : AboutToRun s w i)
    (hmove : MoveResult i .ip v (atHandler s w)) : ∃ t, step s = .next t ∧ t.reg .ip = v := by
  obtain ⟨u, hu, hw⟩ := hmove.2 (not_portRefuses_ip _ _)
  obtain ⟨t, ht, hip⟩ := step_continues_of_writesReg h hu hw
  exact ⟨t, ht, hip.trans (BitVec.sub_add_cancel v 1#32)⟩

/-- Settles O47: the two moves take the value minus 1, the addition the sum. -/
theorem writesToIpContinueWhereStated : Obligations.WritesToIpContinueWhereStated := by
  obtain ⟨_, hmov⟩ := movCopiesTheSource
  obtain ⟨_, hset⟩ := setLoadsTheImmediate
  obtain ⟨_, hadd, _⟩ := addWritesTheWrappedSum
  refine ⟨fun s w rb h => step_continues_of_move h (hmov .ip rb _),
    fun s w v h => step_continues_of_move h (hset .ip v _), fun s w rb h => ?_⟩
  obtain ⟨u, hu, hw⟩ := (hadd .ip rb (atHandler s w)).2 (not_portRefuses_ip _ _)
  rw [wrapped_add] at hw
  exact step_continues_of_writesReg h hu hw

/-- Settles O51: with `Eq` 0 the handler leaves `Ip` at the jump, with `Eq` 1 at the index before the target. -/
theorem jmpContinuesAtTargetOrFallsThrough : Obligations.JmpContinuesAtTargetOrFallsThrough := by
  refine fun s w v h hv =>
    ⟨fun heq => step_continues h (u := atHandler s w) (exec_jmp_of_not_taken hv heq) h.1, fun heq => ?_⟩
  obtain ⟨t, ht, hip, hrun⟩ := step_continues h (exec_jmp_of_taken (s := atHandler s w) hv heq) h.1
  refine ⟨t, ht, ?_, hrun⟩
  rw [hip, reg_putReg_same, BitVec.sub_add_cancel]

theorem not_isFaulted_of_halted {s : State} (h : s.run = .halted) : ¬ IsFaulted s := by
  rintro ⟨kind, k, hf⟩
  cases h.symm.trans hf

/-- Settles O52: `Hlt` completes, so that the increment follows it. -/
theorem hltHaltsAndIpStillAdvances : Obligations.HltHaltsAndIpStillAdvances :=
  ⟨encodedAs_of_fields (op := 0x10#8) (ra := 0#4) (rb := 0#4) rfl, fun _ => rfl, fun s w h =>
    ⟨_, step_of_exec_completed h rfl (not_isFaulted_of_halted rfl), rfl, retired_reg_ip s w _⟩⟩

/-! ### A word placed at the next fetch -/

/-- A word that decodes in some build decodes alike in every build in which its instruction is legal: it is that
instruction's encoding. -/
theorem decode_of_decode {c c' : Config} {w : InstrWord} {i : Instr} (h : decode c w = .ok i)
    (hlegal : i.wf c' = true) : decode c' w = .ok i := by
  obtain ⟨rfl, _⟩ := encodeOfDecodeIsTheWord c w i h
  exact decodeOfEncodeIsTheInstruction c' i hlegal

/-- The build a word is placed on has the option the word needs. -/
theorem wf_buildFor_encode (i : Instr) (c : Config) : i.wf (buildFor (encode i) c) = true := by
  cases i with
  | set ra v => simp [Instr.wf, buildFor, encode]
  | pek => simp [Instr.wf, buildFor, encode]
  | _ => rfl

theorem decode_placeWord {c : Config} {w : InstrWord} {i : Instr} (h : decode c w = .ok i) (s : State) :
    decode (placeWord s w).cfg w = .ok i := by
  refine decode_of_decode h ?_
  obtain ⟨rfl, _⟩ := encodeOfDecodeIsTheWord c w i h
  exact wf_buildFor_encode i s.cfg

theorem placeWord_reg_ip (s : State) (w : InstrWord) : (placeWord s w).reg .ip = fetchIndex s :=
  Regs.get_put_same s.regs .ip _

theorem fetchIndex_nonneg (s : State) : 0 ≤ (fetchIndex s).toInt := by
  unfold fetchIndex
  split
  · decide
  · omega

/-- The word stands in the program at the index in `Ip`. -/
theorem placeWord_prog (s : State) (w : InstrWord) :
    (placeWord s w).prog[((placeWord s w).reg .ip).toNat]? = some w := by
  rw [placeWord_reg_ip]
  exact getElem?_putWord w _ s.prog

theorem placeWord_fetches (s : State) (w : InstrWord) : fetch (announce (placeWord s w)) = some w := by
  rw [fetch_announce, fetch_eq_some]
  exact ⟨placeWord_reg_ip s w ▸ fetchIndex_nonneg s, placeWord_prog s w⟩

theorem transact_eq_runDecoded {s : State} {w : InstrWord} {i : Instr} (hf : fetch s = some w)
    (hd : decode s.cfg w = .ok i) : transact s = runDecoded w i s := by
  rcases transact_cases s with ⟨h, _⟩ | ⟨_, _, h, hd', _⟩ | ⟨_, _, h, hd', he⟩ <;> cases hf.symm.trans h
  · cases hd.symm.trans hd'
  · cases hd.symm.trans hd'
    exact he

/-- Settles O58: the word is at `Ip`, and the build has its option. -/
theorem placedWordIsTheNextOneFetched : Obligations.PlacedWordIsTheNextOneFetched := by
  refine fun s w => ⟨placeWord_fetches s w, rfl, ⟨rfl, rfl⟩, fun c i hdec => ?_⟩
  have hplaced := decode_placeWord hdec s
  refine ⟨⟨rfl, ⟨rfl, rfl⟩, placeWord_reg_ip s w ▸ fetchIndex_nonneg s, placeWord_prog s w, hplaced⟩, ?_⟩
  rw [step_eq_transact rfl ⟨rfl, rfl⟩, transact_eq_runDecoded (placeWord_fetches s w) hplaced]

end Sys2Proof.Machine
end

section
/-! PROOFS of the statements about a step against any host: the inputs and the status interface (spec/10_state.md R29,
R34; 70_reset_and_hazards.md R262), the invariant, and the output hold (spec/46_diagnostics.md R201). -/

namespace Sys2Proof.Machine

open Sys2Proof.Spec

/-! ### What an offer to the host and a whole step keep -/

/-- The inputs of the run are as before. -/
def KeepsProgramAndFlags (s t : State) : Prop :=
  t.cfg = s.cfg ∧ t.prog = s.prog ∧ t.cfgDetails = s.cfgDetails ∧ t.cfgInstructions = s.cfgInstructions

/-- An offer changes neither the inputs nor `listed`, whether or not the host accepts it. -/
theorem deliver_keeps (p : List Event) (x : Regs) (m : Stack) (r : RunState) (s : State) :
    KeepsProgramAndFlags s (deliver p x m r s) ∧ (deliver p x m r s).listed = s.listed := by
  rcases deliver_cases p x m r s with ⟨_, he⟩ | ⟨_, _, _, he⟩ <;> rw [he] <;> exact ⟨⟨rfl, rfl, rfl, rfl⟩, rfl⟩

/-- A step that goes past its listing runs the instruction at `Ip` and offers its events. -/
theorem exists_settled_of_runInstr {s t : State} (h : runInstr s = .next t) :
    ∃ (u : State) (es : List Event), transact s = .next u ∧ u.out = s.out ++ es ∧ SameInputs s u ∧
      t = deliver es u.regs u.stk u.run s := by
  rcases runInstr_cases s with ⟨r, _, hr⟩ | ⟨u, hu, hr⟩ <;> rw [hr] at h <;> cases h
  obtain ⟨⟨es, ho⟩, hsame⟩ := transact_next hu
  exact ⟨u, es, hu, ho, hsame, settle_eq_deliver ho⟩

/-- Everything a step can be, in terms of what it offers to the host. -/
theorem step_next_cases {s t : State} (h : step s = .next t) :
    (s.run ≠ .running ∧ t = s) ∨
    (s.run = .running ∧ ∃ p x m r, s.hold = some (.instruction p x m r) ∧ t = deliver p x m r s) ∨
    (s.run = .running ∧ ¬ HoldsInstruction s ∧ listingBlocked s = true ∧
      t = { s with listed := true, hold := some .listing }) ∨
    (s.run = .running ∧ ¬ HoldsInstruction s ∧ listingBlocked s = false ∧
      ∃ (u : State) (es : List Event), transact (announce s) = .next u ∧ u.out = (announce s).out ++ es ∧
        SameInputs (announce s) u ∧ t = deliver es u.regs u.stk u.run (announce s)) := by
  unfold step at h
  rcases cycle_cases s with ⟨hr, hc⟩ | ⟨hr, p, x, m, r, hh, hc⟩ | ⟨hr, hno, hb, hc⟩ | ⟨hr, hno, hb, hc⟩ <;> rw [hc] at h
  · cases h; exact .inl ⟨hr, rfl⟩
  · cases h; exact .inr (.inl ⟨hr, p, x, m, r, hh, rfl⟩)
  · cases h; exact .inr (.inr (.inl ⟨hr, hno, hb, rfl⟩))
  · exact .inr (.inr (.inr ⟨hr, hno, hb, exists_settled_of_runInstr h⟩))

theorem step_keepsProgramAndFlags {s t : State} (h : step s = .next t) : KeepsProgramAndFlags s t := by
  rcases step_next_cases h with ⟨_, rfl⟩ | ⟨_, p, x, m, r, _, rfl⟩ | ⟨_, _, _, rfl⟩ | ⟨_, _, _, u, es, _, _, _, rfl⟩
  · exact ⟨rfl, rfl, rfl, rfl⟩
  · exact (deliver_keeps p x m r s).1
  · exact ⟨rfl, rfl, rfl, rfl⟩
  · exact (deliver_keeps es _ _ _ (announce s)).1

/-! ### What no handler reads -/

/-- A handler does the same under every program and with every value of `listed`. -/
theorem exec_with_program_and_listed {i : Instr} {s t : State} (h : exec i s = .next t) (p : List InstrWord)
    (b : Bool) : exec i { s with prog := p, listed := b } = .next { t with prog := p, listed := b } := by
  rcases exec_hostBlind i s { s with prog := p, listed := b } with ⟨r, hr, _⟩ | ⟨u, es, hu, ho, hsame, hkeeps⟩
  · cases h.symm.trans hr
  · cases h.symm.trans hu
    obtain ⟨_, _, hdetails, hinstructions, _, hcredit, hhold⟩ := hkeeps
    refine hsame.trans ?_
    simp only [State.rehost, ← ho, ← hdetails, ← hinstructions, ← hcredit, ← hhold]

/-- Settles O23: each part of a step keeps the inputs, and a handler is blind to the program. -/
theorem programAndInputsNeverChange : Obligations.ProgramAndInputsNeverChange := by
  refine ⟨fun s t => step_keepsProgramAndFlags, fun i s t p h => ?_⟩
  obtain ⟨_, _, _, _, hlisted, _⟩ := exec_keepsInputs h
  exact (exec_with_program_and_listed h p s.listed).trans (by rw [← hlisted])

/-! ### Reset and the status interface -/

/-- Settles O8: the field lemmas of `assertReset`. -/
theorem resetKeepsTheInputs : Obligations.ResetKeepsTheInputs := fun s =>
  ⟨assertReset_cfg s, assertReset_prog s, assertReset_cfgDetails s, assertReset_cfgInstructions s,
    assertReset_outCredit s, assertReset_hold s⟩

theorem obsStack_eq {s : State} {k : Nat} (hk : k < s.cfg.stackCap) : obsStack s k = some (s.cell k) :=
  stkRead_eq_some.mpr ⟨by omega, by omega, rfl⟩

/-- Settles O10: each signal is read off the run state. -/
theorem statusShowsRunStateCodeAndIndex : Obligations.StatusShowsRunStateCodeAndIndex := by
  refine ⟨fun s h => ?_, fun s h => ?_, fun s kind k h => ?_, by decide, fun _ => rfl, fun _ _ => obsStack_eq⟩ <;>
    simp [statusState, statusFaultCode, statusFaultIp, h]

theorem showsInputs_own {s : State} (h : programLengthOk s.prog.length = true) :
    ShowsInputs s s.prog s.cfgDetails s.cfgInstructions :=
  ⟨statusProgLen_toNat h, fun _ _ => rfl, rfl, rfl⟩

/-- What the interface shows determines the inputs. -/
theorem inputs_of_showsInputs {s : State} {words : List InstrWord} {details instructions : Bool}
    (hlen : programLengthOk s.prog.length = true) (h : ShowsInputs s words details instructions) :
    s.prog = words ∧ s.cfgDetails = details ∧ s.cfgInstructions = instructions := by
  obtain ⟨hN, hwords, hdetails, hinstructions⟩ := h
  rw [statusProgLen_toNat hlen] at hN
  refine ⟨List.ext_getElem? fun k => ?_, hdetails, hinstructions⟩
  rcases Nat.lt_or_ge k words.length with hk | hk
  · exact hwords k hk
  · rw [List.getElem?_eq_none hk, List.getElem?_eq_none (hN ▸ hk)]

/-- States with the same inputs show the same. -/
theorem showsInputs_congr {s t : State} {words : List InstrWord} {details instructions : Bool}
    (h : ShowsInputs s words details instructions) (hkeeps : KeepsProgramAndFlags s t) :
    ShowsInputs t words details instructions := by
  obtain ⟨_, hprog, hd, hi⟩ := hkeeps
  obtain ⟨hN, hwords, hdetails, hinstructions⟩ := h
  exact ⟨statusProgLen_congr hprog ▸ hN, fun k hk => (statusProgWord_congr hprog k).trans (hwords k hk),
    hd.trans hdetails, hi.trans hinstructions⟩

/-- Settles O59: the signals are functions of the inputs, which no step and no reset changes. -/
theorem statusShowsTheConfigurationInputs : Obligations.StatusShowsTheConfigurationInputs :=
  ⟨fun _ => showsInputs_own, fun _ _ _ _ => inputs_of_showsInputs, fun _ _ _ _ hlen => showsInputs_own hlen,
    fun _ _ _ _ h => ⟨showsInputs_congr h ⟨rfl, rfl, rfl, rfl⟩,
      fun _ hstep => showsInputs_congr h (step_keepsProgramAndFlags hstep)⟩⟩

/-! ### The invariant -/

/-- Settles O11: the reset registers are in their domains whatever the build, and the stack is empty. -/
theorem resetMeetsTheInvariant : Obligations.ResetMeetsTheInvariant := by
  refine ⟨by decide, fun s hbuild => ⟨hbuild, ?_, .inl (reg_assertReset s .eq), ⟨rfl, rfl⟩, rfl, rfl⟩⟩
  have hsp : ((assertReset s).reg .sp).toInt = -1 := by rw [reg_assertReset]; decide
  exact ⟨by omega, by omega⟩

theorem faultIndexOk_of_not_faulted {s : State} (h : ¬ IsFaulted s) : faultIndexOk s = true := by
  unfold faultIndexOk
  split
  · next f k hf => exact absurd ⟨f, k, hf⟩ h
  all_goals rfl

theorem faultIndexOk_takeFault (kind : FaultKind) (s : State) : faultIndexOk (takeFault kind s) = true :=
  decide_eq_true rfl

/-- The increment writes no register that has a domain. -/
theorem retire_inDomains {u : State} (h : InDomains u) (k : Word) (w : InstrWord) : InDomains (retire k w u) := by
  rcases retire_cases k w u with ⟨_, he⟩ | ⟨_, he⟩ <;> rw [he]
  · exact h
  · exact putReg_inDomains (r := .ip) (v := u.reg .ip + 1#32) h rfl

/-- A handler's answer, retired, shows the index of the fault it stopped on. -/
theorem retire_faultIndexOk {i : Instr} {s u : State} (hrun : s.run = .running) (h : exec i s = .next u) (k : Word)
    (w : InstrWord) : faultIndexOk (retire k w u) = true := by
  by_cases hf : IsFaulted u
  · rw [retire_of_faulted hf]
    obtain ⟨kind, j, hj⟩ := hf
    obtain ⟨_, rfl⟩ := stopsWith_of_faulted hrun h hj
    exact faultIndexOk_takeFault kind s
  · rw [retire_of_not_faulted hf]
    exact faultIndexOk_of_not_faulted (s := { u with regs := _, out := _ }) hf

/-- What the instruction at `Ip` leaves, before its events are offered, is within the domains. -/
theorem transact_inDomains {s t : State} (hrun : s.run = .running) (hcfg : s.cfg.wf = true) (hdom : InDomains s)
    (h : transact s = .next t) : InDomains t ∧ faultIndexOk t = true := by
  rcases transact_cases s with ⟨_, he⟩ | ⟨_, _, _, _, he⟩ | ⟨w, i, hf, hd, _⟩
  · cases h.symm.trans he
    exact ⟨hdom, faultIndexOk_takeFault _ s⟩
  · cases h.symm.trans he
    exact ⟨hdom, faultIndexOk_takeFault _ s⟩
  · rcases transact_decoded hf hd with ⟨u, hu, hnext⟩ | ⟨r, _, hfault⟩
    · cases h.symm.trans hnext
      exact ⟨retire_inDomains (exec_inDomains (s := handlerInput w s) hcfg hdom hu) _ w,
        retire_faultIndexOk (s := handlerInput w s) hrun hu _ w⟩
    · cases h.symm.trans hfault

/-- The domains are a matter of the build, the registers and the stack. -/
theorem inDomains_congr {s t : State} (h : InDomains s) (hcfg : t.cfg = s.cfg) (hregs : t.regs = s.regs)
    (hstk : t.stk = s.stk) : InDomains t := by
  unfold InDomains SpOk EqOk StackOk State.reg at h ⊢
  rwa [hcfg, hregs, hstk]

/-- An offer of values within the domains keeps the invariant: when it is accepted they become the block's, else the
block holds on them with events left. -/
theorem deliver_stateInv {p : List Event} {x : Regs} {m : Stack} {r : RunState} {s : State} (hbuild : BuildOk s)
    (hdom : InDomains s) (hrun : s.run = .running) (hlisted : s.listed = true)
    (hleft : InDomains { s with regs := x, stk := m, run := r })
    (hindex : faultIndexOk { s with regs := x, stk := m, run := r } = true) : StateInv (deliver p x m r s) := by
  rcases deliver_cases p x m r s with ⟨_, he⟩ | ⟨n, hn, _, he⟩ <;> rw [he]
  · obtain ⟨hsp, heq, hstk⟩ := hleft
    exact ⟨hbuild, hsp, heq, hstk, hindex, rfl⟩
  · obtain ⟨hsp, heq, hstk⟩ := hdom
    refine ⟨hbuild, hsp, heq, hstk, faultIndexOk_of_not_faulted (not_isFaulted_of_running hrun), ?_⟩
    rw [holdOk_instruction rfl]
    exact ⟨hrun, hlisted, by simpa using hn, hleft, hindex⟩

/-- Settles O12: a stopped block stays; a held instruction leaves what the invariant says of it; a blocked listing is a
hold in a step that has begun; and the instruction at `Ip` leaves values within the domains. -/
theorem stepKeepsTheInvariant : Obligations.StepKeepsTheInvariant := by
  intro s t ⟨hbuild, hsp, heq, hstk, hindex, hhold⟩ hstep
  rcases step_next_cases hstep with ⟨_, rfl⟩ | ⟨hr, p, x, m, r, hh, rfl⟩ | ⟨hr, _, _, rfl⟩ |
    ⟨hr, _, _, u, es, hu, _, ⟨hsame, _⟩, rfl⟩
  · exact ⟨hbuild, hsp, heq, hstk, hindex, hhold⟩
  · obtain ⟨_, hlisted, _, hleft, hleftIndex⟩ := (holdOk_instruction hh).mp hhold
    exact deliver_stateInv hbuild ⟨hsp, heq, hstk⟩ hr hlisted hleft hleftIndex
  · exact ⟨hbuild, hsp, heq, hstk, hindex, decide_eq_true ⟨hr, rfl⟩⟩
  · obtain ⟨hleft, hleftIndex⟩ := transact_inDomains (s := announce s) hr hbuild.1 ⟨hsp, heq, hstk⟩ hu
    exact deliver_stateInv hbuild ⟨hsp, heq, hstk⟩ hr rfl (inDomains_congr hleft hsame.symm rfl rfl) hleftIndex

/-- Inside the domains the instruction at `Ip` is no fault of the model. -/
theorem transact_answers {s : State} (hsp : SpOk s) : ∃ t, transact s = .next t := by
  rcases transact_cases s with ⟨_, he⟩ | ⟨_, _, _, _, he⟩ | ⟨w, i, hf, hd, _⟩
  · exact ⟨_, he⟩
  · exact ⟨_, he⟩
  · obtain ⟨u, hu⟩ := exec_answers i (s := handlerInput w s) hsp
    rcases transact_decoded hf hd with ⟨_, _, hnext⟩ | ⟨r, hr, _⟩
    · exact ⟨_, hnext⟩
    · cases hu.symm.trans hr

/-- Settles O13: only the instruction at `Ip` could answer anything but a next state. -/
theorem stepAnswersInsideTheInvariant : Obligations.StepAnswersInsideTheInvariant := by
  intro s ⟨_, hsp, _⟩
  rcases cycle_cases s with ⟨_, hc⟩ | ⟨_, _, _, _, _, _, hc⟩ | ⟨_, _, _, hc⟩ | ⟨_, _, _, hc⟩
  · exact ⟨_, hc⟩
  · exact ⟨_, hc⟩
  · exact ⟨_, hc⟩
  · obtain ⟨u, hu⟩ := transact_answers (s := announce s) hsp
    exact ⟨_, hc.trans (runInstr_of_transact hu)⟩

/-! ### Stopped blocks and `Hlt` -/

theorem core_run_succ (n : Nat) {s t : State} (h : step s = .next t) :
    Host.Core.run Sys2Proof.core (n + 1) s = Host.Core.run Sys2Proof.core n t := by
  have hcore : Sys2Proof.core.step s = .next t := h
  simp only [Host.Core.run, hcore]

theorem step_of_stopped {s : State} (h : s.run ≠ .running) : step s = .next s := cycle_of_stopped h

/-- Settles O21, by induction on the number of steps. -/
theorem stoppedBlockKeepsItsState : Obligations.StoppedBlockKeepsItsState := by
  refine fun s n hstopped => ⟨?_, assertReset_run s⟩
  induction n with
  | zero => rfl
  | succ n ih => rwa [core_run_succ n (step_of_stopped hstopped)]

/-- An instruction that halts the block is the `Hlt` at `Ip`. -/
theorem decode_hlt_of_transact_halted {s t : State} (hrun : s.run = .running) (h : transact s = .next t)
    (hhalt : t.run = .halted) : ∃ w, fetch s = some w ∧ decode s.cfg w = .ok .hlt := by
  rcases transact_cases s with ⟨_, he⟩ | ⟨_, _, _, _, he⟩ | ⟨w, i, hf, hd, _⟩
  · cases h.symm.trans he
    cases hhalt
  · cases h.symm.trans he
    cases hhalt
  · refine ⟨w, hf, ?_⟩
    rcases transact_decoded hf hd with ⟨u, hu, hnext⟩ | ⟨r, _, hfault⟩
    · cases h.symm.trans hnext
      have hrunu : u.run = .halted := by
        rcases retire_cases (s.reg .ip) w u with ⟨_, he⟩ | ⟨_, he⟩ <;> rwa [he] at hhalt
      rcases (completes_of_not_faulted hu (not_isFaulted_of_halted hrunu)).run with hsame | ⟨rfl, _⟩
      · cases hrunu.symm.trans (hsame.trans hrun)
      · exact hd
    · cases h.symm.trans hfault

/-- Settles O22: only the instruction at `Ip` brings a new run state, at once or into the hold. -/
theorem onlyHltReachesHalted : Obligations.OnlyHltReachesHalted := by
  refine ⟨fun s t hrun hno hstep hhalt => ?begins, fun s t p x m r hrun hhold hstep => ?held⟩
  case begins =>
    rcases step_next_cases hstep with ⟨hstopped, _⟩ | ⟨_, p, x, m, r, hh, _⟩ | ⟨_, _, _, rfl⟩ |
      ⟨_, _, _, u, es, hu, _, _, rfl⟩
    · exact absurd hrun hstopped
    · exact absurd ⟨p, x, m, r, hh⟩ hno
    · rcases hhalt with hhalt | ⟨_, _, _, hhold⟩
      · cases hrun.symm.trans hhalt
      · cases hhold
    · have hleft : u.run = .halted := by
        rcases deliver_cases es u.regs u.stk u.run (announce s) with ⟨_, he⟩ | ⟨_, _, _, he⟩ <;> rw [he] at hhalt <;>
          rcases hhalt with hhalt | ⟨_, _, _, hhold⟩
        · exact hhalt
        · cases hhold
        · cases hrun.symm.trans hhalt
        · obtain ⟨_, _, _, hleft⟩ := Hold.instruction.inj (Option.some.inj hhold)
          exact hleft
      obtain ⟨w, hfetch, hdec⟩ := decode_hlt_of_transact_halted (s := announce s) hrun hu hleft
      obtain ⟨hip, hword⟩ := fetch_eq_some.mp ((fetch_announce s).symm.trans hfetch)
      exact ⟨hip, w, hword, hdec⟩
  case held =>
    cases hstep.symm.trans (cycle_of_held hrun hhold)
    rcases deliver_cases p x m r s with ⟨_, he⟩ | ⟨_, _, _, he⟩ <;> rw [he]
    · exact .inl ⟨rfl, rfl⟩
    · exact .inr ⟨hrun, _, rfl⟩

/-! ### The start of a step: the listing and `fetch_index` -/

/-- Settles O30: a step that begins sets `listed`, blocked or not, and no handler reads it. -/
theorem listedIsSetWhenTheFirstStepBegins : Obligations.ListedIsSetWhenTheFirstStepBegins := by
  refine ⟨assertReset_listed, fun s t hrun hhold hstep => ?begun, fun s hflag hcredit => ?blocked,
    fun i s t b h => ?blind⟩
  case begun =>
    rcases step_next_cases hstep with ⟨hstopped, _⟩ | ⟨_, p, x, m, r, hh, _⟩ | ⟨_, _, _, rfl⟩ |
      ⟨_, _, _, u, es, _, _, _, rfl⟩
    · exact absurd hrun hstopped
    · cases hhold.symm.trans hh
    · rfl
    · exact (deliver_keeps es u.regs u.stk u.run (announce s)).2
  case blocked =>
    have hpending : listingPending (assertReset s) = true := hflag
    exact beginStep_of_blocked (listingBlocked_iff.mpr ⟨hpending, hcredit⟩)
  case blind =>
    obtain ⟨_, hprog, _⟩ := exec_keepsInputs h
    exact (exec_with_program_and_listed h s.prog b).trans (by rw [← hprog])

/-- The listing is still to come in a block that holds on it, and before the first step with `cfg_instructions` set. -/
theorem listingPending_iff {s : State} : listingPending s = true ↔
    s.hold = some .listing ∨ (s.hold = none ∧ s.listed = false ∧ s.cfgInstructions = true) := by
  unfold listingPending
  rcases s.hold with _ | (_ | _) <;> simp

/-- A step fetches in a running block that holds in no instruction, past its listing and inside the program. -/
theorem fetches_iff {s : State} : fetches s = true ↔
    s.run = .running ∧ ¬ HoldsInstruction s ∧ ¬ listingBlocked s = true ∧ ∃ w, fetch s = some w := by
  unfold fetches HoldsInstruction
  rcases s.run with _ | _ | _ <;> rcases s.hold with _ | (_ | _) <;> simp [Option.isSome_iff_exists]

theorem exists_fetch_iff {s : State} :
    (∃ w, fetch s = some w) ↔ 0 ≤ (s.reg .ip).toInt ∧ (s.reg .ip).toInt < (s.prog.length : Int) := by
  rw [← Option.ne_none_iff_exists', ne_eq, fetch_eq_none]
  omega

/-- Settles O29: `fetches_iff` with each of its conditions spelled out. -/
theorem fetchIndexIsShownExactlyWhenAStepFetches : Obligations.FetchIndexIsShownExactlyWhenAStepFetches := by
  intro s k
  have hshown : fetchIndexSignal s = some k ↔ fetches s = true ∧ k = s.reg .ip := by
    simp [fetchIndexSignal, eq_comm (a := k)]
  rw [hshown, fetches_iff, listingBlocked_iff, listingPending_iff, exists_fetch_iff]
  tauto

/-! ### The output hold -/

theorem fetchIndexSignal_of_not_fetches {s : State} (h : ¬ fetches s = true) : fetchIndexSignal s = none := if_neg h

theorem deliver_with_prog (p : List Event) (x : Regs) (m : Stack) (r : RunState) (s : State) (words : List InstrWord) :
    deliver p x m r { s with prog := words } = { deliver p x m r s with prog := words } := by
  rcases Option.eq_none_or_eq_some s.outCredit with hc | ⟨n, hc⟩
  · rw [deliver_all hc, deliver_all (s := { s with prog := words }) hc]
  · rcases Nat.lt_or_ge n p.length with hn | hn
    · rw [deliver_holds hc hn, deliver_holds (s := { s with prog := words }) hc hn]
    · rw [deliver_fits hc hn, deliver_fits (s := { s with prog := words }) hc hn]

/-- A host that accepts nothing leaves a held block as it is. -/
theorem deliver_of_no_credit {p : List Event} {x : Regs} {m : Stack} {r : RunState} {s : State}
    (hhold : s.hold = some (.instruction p x m r)) (hcredit : s.outCredit = some 0) (hp : p ≠ []) :
    deliver p x m r s = s := by
  rw [deliver_holds hcredit (List.length_pos_iff.mpr hp), List.take_zero, List.append_nil, List.drop_zero, ← hcredit,
    ← hhold]

/-- Settles O28: a held block only offers its pending events, and a block on its listing only the listing. -/
theorem heldBlockFetchesNothing : Obligations.HeldBlockFetchesNothing := by
  refine ⟨fun s p x m r hrun hhold => ?instruction, fun s hrun hhold hlisted hcredit => ?listing⟩
  case instruction =>
    have hstep := cycle_of_held hrun hhold
    refine ⟨fetchIndexSignal_of_not_fetches fun hf => ?_, ?_, ⟨_, hstep, fun words => ?_⟩, fun hcredit hp => ?_,
      fun hcredit => ?_⟩
    · obtain ⟨_, hno, _⟩ := fetches_iff.mp hf
      exact hno ⟨p, x, m, r, hhold⟩
    · rw [outEvent, hrun, hhold]
    · rw [← deliver_with_prog]
      exact cycle_of_held (s := { s with prog := words }) hrun hhold
    · rw [step, hstep, deliver_of_no_credit hhold hcredit hp]
    · rw [step, hstep, deliver_all hcredit]
  case listing =>
    have hblocked : listingBlocked s = true := listingBlocked_iff.mpr ⟨listingPending_iff.mpr (.inl hhold), hcredit⟩
    refine ⟨fetchIndexSignal_of_not_fetches fun hf => ?_, ?_, ?_⟩
    · obtain ⟨_, _, hfree, _⟩ := fetches_iff.mp hf
      exact hfree hblocked
    · rw [outEvent, hrun, hhold]
    · have hno : ¬ HoldsInstruction s := by rintro ⟨_, _, _, _, hh⟩; cases hhold.symm.trans hh
      rw [step, cycle_eq_beginStep hrun hno, beginStep_of_blocked hblocked, ← hlisted, ← hhold]

end Sys2Proof.Machine
end

section
/-! PROOFS of the two relations between runs: the flags change the output alone (spec/46_diagnostics.md R210, R211), and
a held instruction completes as if it had never been held (R201). -/

namespace Sys2Proof.Machine

open Sys2Proof.Spec

/-! ### Runs that differ in the flags -/

/-- `s` with other flags and another channel. -/
def reflagged (details instructions : Bool) (o : List Event) (s : State) : State :=
  { s with cfgDetails := details, cfgInstructions := instructions, out := o }

theorem announce_reflagged (d i : Bool) (o : List Event) {s : State} (hacc : HostAccepts s) :
    ∃ o', announce (reflagged d i o s) = reflagged d i o' (announce s) := by
  refine ⟨o ++ listingDue (reflagged d i o s), ?_⟩
  rw [announce_of_accepts (s := reflagged d i o s) hacc, announce_of_accepts hacc]
  rfl

/-- The instruction at `Ip` leaves the same but for the channel, whatever the flags. -/
theorem transact_reflagged (d i : Bool) (o : List Event) {s t : State} (h : transact s = .next t) :
    ∃ o', transact (reflagged d i o s) = .next (reflagged d i o' t) := by
  rcases transact_hostBlind s (reflagged d i o s) rfl with ⟨r, hr, _⟩ | ⟨u, _, es, hu, _, hsame, _, hkeeps⟩
  · cases h.symm.trans hr
  · cases h.symm.trans hu
    obtain ⟨_, hprog, _, _, hlisted, hcredit, hhold⟩ := hkeeps
    refine ⟨o ++ es, hsame.trans ?_⟩
    simp only [State.rehost, reflagged, ← hprog, ← hlisted, ← hcredit, ← hhold]

/-- One step: the flags decide the events of the step and nothing else. -/
theorem step_reflagged (d i : Bool) (o : List Event) {s t : State} (hacc : HostAccepts s) (h : step s = .next t) :
    HostAccepts t ∧ ∃ o', step (reflagged d i o s) = .next (reflagged d i o' t) := by
  by_cases hrun : s.run = .running
  · rw [step_eq_transact hrun hacc] at h
    obtain ⟨_, _, _, _, _, _, hcredit, hhold⟩ := transact_next h
    rw [announce_of_accepts hacc] at hcredit hhold
    obtain ⟨o₁, hannounce⟩ := announce_reflagged d i o hacc
    obtain ⟨o₂, ht⟩ := transact_reflagged d i o₁ h
    refine ⟨⟨hcredit.trans hacc.1, hhold.trans hacc.2⟩, o₂, ?_⟩
    rw [step_eq_transact (s := reflagged d i o s) hrun hacc, hannounce, ht]
  · cases (step_of_stopped hrun).symm.trans h
    exact ⟨hacc, o, step_of_stopped hrun⟩

theorem exists_step_of_core_run_succ {n : Nat} {s t : State} (h : Host.Core.run Sys2Proof.core (n + 1) s = .next t) :
    ∃ u, step s = .next u ∧ Host.Core.run Sys2Proof.core n u = .next t := by
  have hcore : Sys2Proof.core.step s = step s := rfl
  rcases hs : step s with u | r | r <;> rw [hs] at hcore <;> simp only [Host.Core.run, hcore] at h
  · exact ⟨u, rfl, h⟩
  · cases h
  · cases h

theorem run_reflagged (d i : Bool) (n : Nat) : ∀ {s t : State} (o : List Event), HostAccepts s →
    Host.Core.run Sys2Proof.core n s = .next t →
    ∃ o', Host.Core.run Sys2Proof.core n (reflagged d i o s) = .next (reflagged d i o' t) := by
  induction n with
  | zero =>
    intro s t o _ h
    cases h
    exact ⟨o, rfl⟩
  | succ n ih =>
    intro s t o hacc h
    obtain ⟨u, hu, hrest⟩ := exists_step_of_core_run_succ h
    obtain ⟨haccu, o₁, hu'⟩ := step_reflagged d i o hacc hu
    obtain ⟨o₂, hrest'⟩ := ih o₁ haccu hrest
    exact ⟨o₂, (core_run_succ n hu').trans hrest'⟩

/-- Settles O26: `run_reflagged` from the same channel. -/
theorem flagsChangeOnlyTheOutput : Obligations.FlagsChangeOnlyTheOutput :=
  fun n s _ d i hacc h => run_reflagged d i n s.out hacc h

/-! ### Held and unheld steps -/

/-- `s` before a host that accepts every event (`none`), or `n` more events (`some n`). -/
def facing (c : Option Nat) (s : State) : State := { s with outCredit := c }

/-- `s` holding in an instruction, `n` of its events being accepted. -/
def holdingAfter (n : Nat) (p : List Event) (x : Regs) (m : Stack) (r : RunState) (s : State) : State :=
  { s with out := s.out ++ p.take n, outCredit := some 0, hold := some (.instruction (p.drop n) x m r) }

/-- An offer to a host that accepts `n` more events completes as before a host that accepts all, or holds. -/
theorem deliver_facing (n : Nat) (p : List Event) (x : Regs) (m : Stack) (r : RunState) (s : State) :
    (∃ k, k ≤ n ∧ deliver p x m r (facing (some n) s) = facing (some k) (deliver p x m r (facing none s))) ∨
    (n < p.length ∧ deliver p x m r (facing (some n) s) = holdingAfter n p x m r s) := by
  rcases Nat.lt_or_ge n p.length with hn | hn
  · exact .inr ⟨hn, deliver_holds (s := facing (some n) s) rfl hn x m r⟩
  · refine .inl ⟨n - p.length, Nat.sub_le _ _, ?_⟩
    rw [deliver_fits (s := facing (some n) s) rfl hn, deliver_all (s := facing none s) rfl]
    rfl

/-- Once the host accepts again, a held instruction ends where it would have ended unheld. -/
theorem step_holdingAfter (n : Nat) (p : List Event) (x : Regs) (m : Stack) (r : RunState) {s : State}
    (hrun : s.run = .running) :
    step (facing none (holdingAfter n p x m r s)) = .next (deliver p x m r (facing none s)) := by
  refine (cycle_of_held (s := facing none (holdingAfter n p x m r s)) hrun rfl).trans ?_
  rw [deliver_all (s := facing none (holdingAfter n p x m r s)) rfl, deliver_all (s := facing none s) rfl]
  simp only [facing, holdingAfter, List.append_assoc, List.take_append_drop]

theorem step_eq_runInstr {s : State} (hrun : s.run = .running) (hno : ¬ HoldsInstruction s)
    (hb : listingBlocked s = false) : step s = runInstr (announce s) :=
  (cycle_eq_beginStep hrun hno).trans (beginStep_of_not_blocked hb)

theorem announce_facing (c : Option Nat) (s : State) :
    announce (facing c s) = facing (c.map (· - (listingEvents s).length)) (announce s) := rfl

/-- The instruction at `Ip` leaves the same whatever the host accepts. -/
theorem transact_facing (c : Option Nat) {s t : State} (h : transact s = .next t) :
    transact (facing c s) = .next (facing c t) := by
  obtain ⟨⟨es, ho⟩, _, _, _, _, _, _, hhold⟩ := transact_next h
  refine (transact_port h ho s.out c s.hold).trans ?_
  rw [← ho, ← hhold]
  rfl

theorem listingEvents_of_pending {s : State} (h : listingPending s = true) : listingEvents s = [.listing s.prog] :=
  if_pos h

/-- A listing that is not blocked is within what the host accepts. -/
theorem length_listingEvents_le {s : State} {n : Nat} (hb : listingBlocked (facing (some n) s) = false) :
    (listingEvents s).length ≤ n := by
  by_cases hp : listingPending s = true
  · have hn : n ≠ 0 := by
      rintro rfl
      exact Bool.false_ne_true (hb.symm.trans (listingBlocked_iff.mpr ⟨hp, rfl⟩))
    rw [listingEvents_of_pending hp, List.length_singleton]
    omega
  · rw [listingEvents, if_neg hp]
    exact Nat.zero_le n

/-- `s` holding in front of its fetch. -/
def holdingOnListing (s : State) : State := { s with listed := true, hold := some .listing }

/-- Held on the listing, the step goes on from it as it would have begun. -/
theorem announce_holdingOnListing {s : State} (hp : listingPending s = true) :
    announce (facing none (holdingOnListing s)) = announce (facing none s) := by
  have hevents : listingEvents (facing none s) = [.listing s.prog] := listingEvents_of_pending hp
  rw [announce, announce, hevents]
  rfl

theorem not_holdsInstruction_of_listing {s : State} (h : s.hold = some .listing) : ¬ HoldsInstruction s := by
  rintro ⟨_, _, _, _, hhold⟩
  cases h.symm.trans hhold

/-- `u` is `s` held, `n` events being accepted, to complete in `t` once the host accepts again. -/
def HoldsToComplete (n : Nat) (s t u : State) : Prop :=
  u.hold ≠ none ∧ u.regs = s.regs ∧ u.stk = s.stk ∧ u.run = s.run ∧ (s.hold = none → u.listed = true) ∧
    u.outCredit = some 0 ∧ (∃ es, es.length = n ∧ u.out = s.out ++ es) ∧ step (facing none u) = .next t

/-- `u` is the end `t` of the unheld step, before a host that accepts at most `n` more events. -/
def CompletesIn (n : Nat) (t u : State) : Prop := ∃ m, m ≤ n ∧ u = facing (some m) t

section Held
variable {s t u : State} {n : Nat}

/-- In an instruction: the pending events are offered to either host. -/
theorem held_of_holding (hrun : s.run = .running) (hh : HoldsInstruction s) (ht : step (facing none s) = .next t)
    (hu : step (facing (some n) s) = .next u) : CompletesIn n t u ∨ HoldsToComplete n s t u := by
  obtain ⟨p, x, m, r, hhold⟩ := hh
  cases ht.symm.trans (cycle_of_held (s := facing none s) hrun hhold)
  cases hu.symm.trans (cycle_of_held (s := facing (some n) s) hrun hhold)
  rcases deliver_facing n p x m r s with ⟨k, hk, he⟩ | ⟨hn, he⟩ <;> rw [he]
  · exact .inl ⟨k, hk, rfl⟩
  · refine .inr ⟨Option.some_ne_none _, rfl, rfl, rfl, fun hnone => ?_, rfl,
      ⟨p.take n, List.length_take_of_le hn.le, rfl⟩, step_holdingAfter n p x m r hrun⟩
    cases hhold.symm.trans hnone

/-- On a listing that is not accepted: no event goes out, and the step begins as before once the host accepts. -/
theorem held_of_blocked (hrun : s.run = .running) (hno : ¬ HoldsInstruction s)
    (hb : listingBlocked (facing (some n) s) = true) (ht : step (facing none s) = .next t)
    (hu : step (facing (some n) s) = .next u) : HoldsToComplete n s t u := by
  obtain ⟨hp, hcredit⟩ := listingBlocked_iff.mp hb
  cases hcredit
  cases hu.symm.trans ((cycle_eq_beginStep (s := facing (some 0) s) hrun hno).trans (beginStep_of_blocked hb))
  refine ⟨Option.some_ne_none _, rfl, rfl, rfl, fun _ => rfl, rfl, ⟨[], rfl, (List.append_nil _).symm⟩, ?_⟩
  have hnone : ∀ v : State, listingBlocked (facing none v) = false := fun _ => listingBlocked_of_accepts rfl
  calc step (facing none (holdingOnListing s))
    _ = runInstr (announce (facing none (holdingOnListing s))) :=
      step_eq_runInstr hrun (not_holdsInstruction_of_listing rfl) (hnone _)
    _ = runInstr (announce (facing none s)) := congrArg runInstr (announce_holdingOnListing hp)
    _ = step (facing none s) := (step_eq_runInstr (s := facing none s) hrun hno (hnone s)).symm
    _ = .next t := ht

/-- Past the listing: the instruction at `Ip` leaves the same before either host, which takes its events after the
listing. -/
theorem held_of_begun (hrun : s.run = .running) (hno : ¬ HoldsInstruction s)
    (hb : listingBlocked (facing (some n) s) = false) (ht : step (facing none s) = .next t)
    (hu : step (facing (some n) s) = .next u) : CompletesIn n t u ∨ HoldsToComplete n s t u := by
  have hle := length_listingEvents_le hb
  rw [step_eq_runInstr (s := facing none s) hrun hno (listingBlocked_of_accepts rfl), announce_facing] at ht
  rw [step_eq_runInstr (s := facing (some n) s) hrun hno hb, announce_facing] at hu
  obtain ⟨v, es, hv, hout, _, rfl⟩ := exists_settled_of_runInstr ht
  obtain ⟨v', es', hv', hout', _, rfl⟩ := exists_settled_of_runInstr hu
  cases hv'.symm.trans (transact_facing (s := facing none (announce s)) (some (n - (listingEvents s).length)) hv)
  cases List.append_cancel_left (hout.symm.trans hout')
  rcases deliver_facing (n - (listingEvents s).length) es v.regs v.stk v.run (announce s) with ⟨k, hk, he⟩ | ⟨hn, he⟩
  · exact .inl ⟨k, hk.trans (Nat.sub_le _ _), he⟩
  · right
    refine he ▸ ⟨Option.some_ne_none _, rfl, rfl, rfl, fun _ => rfl, rfl,
      ⟨listingEvents s ++ es.take (n - (listingEvents s).length), ?_, ?_⟩, step_holdingAfter _ es _ _ _ hrun⟩
    · rw [List.length_append, List.length_take_of_le hn.le]
      omega
    · exact List.append_assoc _ _ _

end Held

/-- Settles O27: a stopped block offers nothing; a block that holds in an instruction offers what is pending; one that
begins is blocked on its listing or offers the events of the instruction at `Ip`. -/
theorem heldInstructionCompletesUnchanged : Obligations.HeldInstructionCompletesUnchanged := by
  intro s t u n ht hu
  change CompletesIn n t u ∨ HoldsToComplete n s t u
  by_cases hrun : s.run = .running
  · by_cases hh : HoldsInstruction s
    · exact held_of_holding hrun hh ht hu
    · rcases hb : listingBlocked (facing (some n) s) with _ | _
      · exact held_of_begun hrun hh hb ht hu
      · exact .inr (held_of_blocked hrun hh hb ht hu)
  · cases ht.symm.trans (step_of_stopped (s := facing none s) hrun)
    cases hu.symm.trans (step_of_stopped (s := facing (some n) s) hrun)
    exact .inl ⟨n, le_rfl, rfl⟩

end Sys2Proof.Machine
end
